-- ==== Sys2Proof/Word.lean ====
section
/-! DEFINITION. The word types of c8core: bytes, 16-bit words, 12-bit addresses inside an opcode and the 4-bit
numbers that select registers and keys (spec/00_scope.md R4, R6, R7; spec/30_encoding.md R91). -/

namespace Sys2Proof

/-- A byte: a register V[i], a timer, a byte of memory (R4). -/
abbrev Byte := BitVec 8

/-- A 16-bit value: pc, I, a stack entry, an opcode (R4, R6). -/
abbrev Word := BitVec 16

/-- The 12-bit field nnn of an opcode (R91). -/
abbrev Addr12 := BitVec 12

/-- A register number, the field x or y (R91, R93: all 16 values are legal). -/
abbrev Reg := Fin 16

/-- A 4-bit count or number, the field n (R91). -/
abbrev Nibble := Fin 16

/-- VF, the flag register V[15] (10_state.md R23). -/
def VF : Reg := 15

end Sys2Proof
end

