-- ==== Sys2Proof/Syntax.lean ====
section
/-! DEFINITION. The 35 instructions of c8core, one constructor per row of spec/30_encoding.md R95 and of
spec/opcode_table.json, in the table's order. -/

namespace Sys2Proof

/-- An instruction with its operand fields (R91, R92). Register fields are register numbers, nn is a byte, nnn a
12-bit address, n a count of rows. -/
inductive Instr where
  /-- 00E0 clear-screen (R221). -/
  | clearScreen
  /-- 00EE return (R151). -/
  | ret
  /-- 0NNN legacy-call (R150). -/
  | legacyCall (nnn : Addr12)
  /-- 1NNN jump (R152). -/
  | jump (nnn : Addr12)
  /-- 2NNN call (R153). -/
  | call (nnn : Addr12)
  /-- 3XNN skip-eq-imm (R155). -/
  | skipEqImm (x : Reg) (nn : Byte)
  /-- 4XNN skip-neq-imm (R156). -/
  | skipNeqImm (x : Reg) (nn : Byte)
  /-- 5XY0 skip-eq-reg (R157). -/
  | skipEqReg (x y : Reg)
  /-- 6XNN load-imm (R171). -/
  | loadImm (x : Reg) (nn : Byte)
  /-- 7XNN add-imm (R172). -/
  | addImm (x : Reg) (nn : Byte)
  /-- 8XY0 move (R173). -/
  | move (x y : Reg)
  /-- 8XY1 or (R174). -/
  | or (x y : Reg)
  /-- 8XY2 and (R175). -/
  | and (x y : Reg)
  /-- 8XY3 xor (R176). -/
  | xor (x y : Reg)
  /-- 8XY4 add (R177). -/
  | add (x y : Reg)
  /-- 8XY5 sub (R178). -/
  | sub (x y : Reg)
  /-- 8XY6 shr (R179); y is encoded and ignored (R93). -/
  | shr (x y : Reg)
  /-- 8XY7 subn (R180). -/
  | subn (x y : Reg)
  /-- 8XYE shl (R181); y is encoded and ignored (R93). -/
  | shl (x y : Reg)
  /-- 9XY0 skip-neq-reg (R158). -/
  | skipNeqReg (x y : Reg)
  /-- ANNN load-index (R200). -/
  | loadIndex (nnn : Addr12)
  /-- BNNN jump-offset (R154). -/
  | jumpOffset (nnn : Addr12)
  /-- CXNN rand (R182). -/
  | rand (x : Reg) (nn : Byte)
  /-- DXYN draw (R222). -/
  | draw (x y : Reg) (n : Nibble)
  /-- EX9E skip-key (R241). -/
  | skipKey (x : Reg)
  /-- EXA1 skip-notkey (R242). -/
  | skipNotkey (x : Reg)
  /-- FX07 get-delay (R245). -/
  | getDelay (x : Reg)
  /-- FX0A wait-key (R244). -/
  | waitKey (x : Reg)
  /-- FX15 set-delay (R246). -/
  | setDelay (x : Reg)
  /-- FX18 set-sound (R247). -/
  | setSound (x : Reg)
  /-- FX1E add-index (R201). -/
  | addIndex (x : Reg)
  /-- FX29 font-addr (R202). -/
  | fontAddr (x : Reg)
  /-- FX33 bcd (R203). -/
  | bcd (x : Reg)
  /-- FX55 store-regs (R204). -/
  | storeRegs (x : Reg)
  /-- FX65 load-regs (R205). -/
  | loadRegs (x : Reg)
deriving DecidableEq, Repr

/-- The mnemonic of an instruction: the source's name, R95. -/
def Instr.mnemonic : Instr → String
  | .clearScreen => "clear-screen"
  | .ret => "return"
  | .legacyCall _ => "legacy-call"
  | .jump _ => "jump"
  | .call _ => "call"
  | .skipEqImm _ _ => "skip-eq-imm"
  | .skipNeqImm _ _ => "skip-neq-imm"
  | .skipEqReg _ _ => "skip-eq-reg"
  | .loadImm _ _ => "load-imm"
  | .addImm _ _ => "add-imm"
  | .move _ _ => "move"
  | .or _ _ => "or"
  | .and _ _ => "and"
  | .xor _ _ => "xor"
  | .add _ _ => "add"
  | .sub _ _ => "sub"
  | .shr _ _ => "shr"
  | .subn _ _ => "subn"
  | .shl _ _ => "shl"
  | .skipNeqReg _ _ => "skip-neq-reg"
  | .loadIndex _ => "load-index"
  | .jumpOffset _ => "jump-offset"
  | .rand _ _ => "rand"
  | .draw _ _ _ => "draw"
  | .skipKey _ => "skip-key"
  | .skipNotkey _ => "skip-notkey"
  | .getDelay _ => "get-delay"
  | .waitKey _ => "wait-key"
  | .setDelay _ => "set-delay"
  | .setSound _ => "set-sound"
  | .addIndex _ => "add-index"
  | .fontAddr _ => "font-addr"
  | .bcd _ => "bcd"
  | .storeRegs _ => "store-regs"
  | .loadRegs _ => "load-regs"

end Sys2Proof
end

