-- ==== Sys2Proof/WellFormed.lean ====
section
/-! DEFINITION. Which terms of Instr have an encoding of their own (spec/30_encoding.md R93 to R95, R99). The field
types already bound every operand, so one check is left: the two words 0x00E0 and 0x00EE are clear-screen and return,
so legacy-call has no encoding for nnn = 0x0E0 or nnn = 0x0EE (R95 row 3, R97, R99). -/

namespace Sys2Proof

/-- The instruction is one the decoder can give (R94, R99). -/
def Instr.wellFormed : Instr → Bool
  | .legacyCall nnn => nnn != 0x0E0 && nnn != 0x0EE
  | .clearScreen | .ret | .jump _ | .call _ | .skipEqImm _ _ | .skipNeqImm _ _ | .skipEqReg _ _ | .loadImm _ _
  | .addImm _ _ | .move _ _ | .or _ _ | .and _ _ | .xor _ _ | .add _ _ | .sub _ _ | .shr _ _ | .subn _ _
  | .shl _ _ | .skipNeqReg _ _ | .loadIndex _ | .jumpOffset _ | .rand _ _ | .draw _ _ _ | .skipKey _
  | .skipNotkey _ | .getDelay _ | .waitKey _ | .setDelay _ | .setSound _ | .addIndex _ | .fontAddr _ | .bcd _
  | .storeRegs _ | .loadRegs _ => true

/-- The check as a proposition. -/
abbrev Instr.WellFormed (i : Instr) : Prop := i.wellFormed = true

end Sys2Proof
end

