-- ==== Sys2Proof/Decode.lean ====
section
/-! DEFINITION. The decoder of spec/30_encoding.md R94, total on any bytes, and the encoder of R99 after it. A word
outside the opcode map is rejected by name (`DecodeResult.illegal`, R96), and so is a list too short to hold an opcode. -/

namespace Sys2Proof

/-! ## Bytes and words (20_memory.md R63) -/

/-- Two bytes as a big-endian word: the byte at the lower address is bits 15 to 8 (R63). -/
def joinBytes (hi lo : Byte) : Word := BitVec.ofNat 16 (hi.toNat * 256 + lo.toNat)

/-- Bits 15 to 8 of a word, the byte stored at the lower address (R63). -/
def highByte (w : Word) : Byte := BitVec.ofNat 8 (w.toNat / 256)

/-- Bits 7 to 0 of a word, the byte stored at the higher address (R63). -/
def lowByte (w : Word) : Byte := BitVec.ofNat 8 w.toNat

/-! ## The fields of an opcode (R91) -/

/-- op = w[15:12]. -/
def opField (w : Word) : Nat := w.toNat / 4096

/-- x = w[11:8]. -/
def xField (w : Word) : Reg := ⟨w.toNat / 256 % 16, Nat.mod_lt _ (by decide)⟩

/-- y = w[7:4]. -/
def yField (w : Word) : Reg := ⟨w.toNat / 16 % 16, Nat.mod_lt _ (by decide)⟩

/-- n = w[3:0]. -/
def nField (w : Word) : Nibble := ⟨w.toNat % 16, Nat.mod_lt _ (by decide)⟩

/-- nn = w[7:0]. -/
def nnField (w : Word) : Byte := BitVec.ofNat 8 w.toNat

/-- nnn = w[11:0]. -/
def nnnField (w : Word) : Addr12 := BitVec.ofNat 12 w.toNat

/-! ## Decoding (R94) -/

/-- Major 8: the function code n selects the row. -/
def decodeAlu (w : Word) : Option Instr :=
  match (nField w).val with
  | 0x0 => some (.move (xField w) (yField w))
  | 0x1 => some (.or (xField w) (yField w))
  | 0x2 => some (.and (xField w) (yField w))
  | 0x3 => some (.xor (xField w) (yField w))
  | 0x4 => some (.add (xField w) (yField w))
  | 0x5 => some (.sub (xField w) (yField w))
  | 0x6 => some (.shr (xField w) (yField w))
  | 0x7 => some (.subn (xField w) (yField w))
  | 0xE => some (.shl (xField w) (yField w))
  | _ => none

/-- Major E: the function code nn selects the row. -/
def decodeKey (w : Word) : Option Instr :=
  match (nnField w).toNat with
  | 0x9E => some (.skipKey (xField w))
  | 0xA1 => some (.skipNotkey (xField w))
  | _ => none

/-- Major F: the function code nn selects the row. -/
def decodeMisc (w : Word) : Option Instr :=
  match (nnField w).toNat with
  | 0x07 => some (.getDelay (xField w))
  | 0x0A => some (.waitKey (xField w))
  | 0x15 => some (.setDelay (xField w))
  | 0x18 => some (.setSound (xField w))
  | 0x1E => some (.addIndex (xField w))
  | 0x29 => some (.fontAddr (xField w))
  | 0x33 => some (.bcd (xField w))
  | 0x55 => some (.storeRegs (xField w))
  | 0x65 => some (.loadRegs (xField w))
  | _ => none

/-- Major 0: the two fixed words on all 16 bits first, every other word is legacy-call (R94, R97). -/
def decodeZero (w : Word) : Instr :=
  if w = 0x00E0 then .clearScreen
  else if w = 0x00EE then .ret
  else .legacyCall (nnnField w)

/-- The decode function of R94; `none` is its `Illegal`. -/
def decode (w : Word) : Option Instr :=
  match opField w with
  | 0x0 => some (decodeZero w)
  | 0x1 => some (.jump (nnnField w))
  | 0x2 => some (.call (nnnField w))
  | 0x3 => some (.skipEqImm (xField w) (nnField w))
  | 0x4 => some (.skipNeqImm (xField w) (nnField w))
  | 0x5 => if nField w = 0 then some (.skipEqReg (xField w) (yField w)) else none
  | 0x6 => some (.loadImm (xField w) (nnField w))
  | 0x7 => some (.addImm (xField w) (nnField w))
  | 0x8 => decodeAlu w
  | 0x9 => if nField w = 0 then some (.skipNeqReg (xField w) (yField w)) else none
  | 0xA => some (.loadIndex (nnnField w))
  | 0xB => some (.jumpOffset (nnnField w))
  | 0xC => some (.rand (xField w) (nnField w))
  | 0xD => some (.draw (xField w) (yField w) (nField w))
  | 0xE => decodeKey w
  | 0xF => decodeMisc w
  | _ => none

/-- What the decoder says of a list of bytes. -/
inductive DecodeResult where
  /-- An instruction, and the bytes after it. -/
  | instr (i : Instr) (rest : List Byte)
  /-- The word stands in no row of the opcode map (R96). -/
  | illegal (w : Word)
  /-- Fewer than two bytes: no opcode (R90). -/
  | tooShort
deriving DecidableEq, Repr

/-- Decoding the first two bytes of a list, the high byte first (R63, R90, R94). -/
def decodeBytes : List Byte → DecodeResult
  | hi :: lo :: rest =>
    match decode (joinBytes hi lo) with
    | some i => .instr i rest
    | none => .illegal (joinBytes hi lo)
  | [_] => .tooShort
  | [] => .tooShort

/-! ## The host's numbering of an opcode-table row -/

/-- The word whose bits, numbered as spec/opcode_table.json numbers them, are the low `nbits` bits of `w`: one 16-bit
word, bit 0 its least significant. -/
def tableWord (nbits w : Nat) : Word := BitVec.ofNat 16 (w % 2 ^ nbits)

/-- The instruction the decoder reads from that word's bytes as memory holds them (R63). -/
def decodeTableWord (nbits w : Nat) : Option Instr :=
  match decodeBytes [highByte (tableWord nbits w), lowByte (tableWord nbits w)] with
  | .instr i _ => some i
  | .illegal _ => none
  | .tooShort => none

/-! ## Encoding (R92, R99) -/

/-- Format A: op and nnn. -/
def wordA (op : Nat) (nnn : Addr12) : Word := BitVec.ofNat 16 (op * 4096 + nnn.toNat)

/-- Format I: op, x and nn; also format X, whose nn is the function code. -/
def wordI (op : Nat) (x : Reg) (nn : Byte) : Word := BitVec.ofNat 16 (op * 4096 + x.val * 256 + nn.toNat)

/-- Format R: op, x, y and the function code; also format D, whose last nibble is the count n. -/
def wordR (op : Nat) (x y : Reg) (n : Nibble) : Word :=
  BitVec.ofNat 16 (op * 4096 + x.val * 256 + y.val * 16 + n.val)

/-- The opcode of an instruction (R99, column "assembles to"). -/
def encode : Instr → Word
  | .clearScreen => 0x00E0
  | .ret => 0x00EE
  | .legacyCall nnn => wordA 0x0 nnn
  | .jump nnn => wordA 0x1 nnn
  | .call nnn => wordA 0x2 nnn
  | .skipEqImm x nn => wordI 0x3 x nn
  | .skipNeqImm x nn => wordI 0x4 x nn
  | .skipEqReg x y => wordR 0x5 x y 0x0
  | .loadImm x nn => wordI 0x6 x nn
  | .addImm x nn => wordI 0x7 x nn
  | .move x y => wordR 0x8 x y 0x0
  | .or x y => wordR 0x8 x y 0x1
  | .and x y => wordR 0x8 x y 0x2
  | .xor x y => wordR 0x8 x y 0x3
  | .add x y => wordR 0x8 x y 0x4
  | .sub x y => wordR 0x8 x y 0x5
  | .shr x y => wordR 0x8 x y 0x6
  | .subn x y => wordR 0x8 x y 0x7
  | .shl x y => wordR 0x8 x y 0xE
  | .skipNeqReg x y => wordR 0x9 x y 0x0
  | .loadIndex nnn => wordA 0xA nnn
  | .jumpOffset nnn => wordA 0xB nnn
  | .rand x nn => wordI 0xC x nn
  | .draw x y n => wordR 0xD x y n
  | .skipKey x => wordI 0xE x 0x9E
  | .skipNotkey x => wordI 0xE x 0xA1
  | .getDelay x => wordI 0xF x 0x07
  | .waitKey x => wordI 0xF x 0x0A
  | .setDelay x => wordI 0xF x 0x15
  | .setSound x => wordI 0xF x 0x18
  | .addIndex x => wordI 0xF x 0x1E
  | .fontAddr x => wordI 0xF x 0x29
  | .bcd x => wordI 0xF x 0x33
  | .storeRegs x => wordI 0xF x 0x55
  | .loadRegs x => wordI 0xF x 0x65

/-- The two bytes of an instruction in memory order (R63, R90). -/
def encodeBytes (i : Instr) : List Byte := [highByte (encode i), lowByte (encode i)]

end Sys2Proof
end

