-- ==== Sys2Proof/Config.lean ====
section
/-! DEFINITION. What one implementation of c8core fixes: the sizes of spec/00_scope.md R4, the OPEN parameters of
spec/92_eei_decisions.md at the defaults the spec gives them, and the free value of the machine. -/

namespace Sys2Proof

/-- DRAW_EDGE (R4, 92 D10): what DXYN does with a pixel beyond column 63 or row 31. -/
inductive DrawEdge where
  /-- The pixel changes no cell (the spec's default). -/
  | clip
  /-- The pixel lands on the opposite edge (the offered alternative). -/
  | wrap
deriving DecidableEq, Repr

/-- KEY_SELECT (R4, 92 D13): which pressed key FX0A returns. -/
inductive KeySelect where
  /-- The lowest-numbered pressed key (the spec's default). -/
  | lowest
  /-- Some pressed key, a free choice (the offered alternative). -/
  | any
deriving DecidableEq, Repr

namespace Config

/-- The largest address of main memory: MEM_SIZE is 4096 (R4). -/
def memLast : Nat := 0xFFF

/-- PROG_BASE: the load address and the reset value of pc (R4). -/
def progBase : Nat := 0x200

/-- MAX_IMAGE: the longest image `load` admits (R4, 20_memory.md R75). -/
def maxImage : Nat := 3584

/-- PC_FETCH_LAST: the largest pc from which a fetch succeeds (R4, R69). DESIGN CHOICE, unsafe, entry 4. -/
def pcFetchLast : Nat := 0xFFD

/-- FONT_BASE: the address of glyph 0 (R4, 10_state.md R37). -/
def fontBase : Nat := 0x00A

/-- FONT_ROM, 16 glyphs of 5 bytes (10_state.md R37). Glyph 0 is the source's. Glyphs 1 to F are PRESUMED, unsafe,
entry 5: the default of R37, which the spec marks as general knowledge. -/
def fontRom : List Byte :=
  [0xF0, 0x90, 0x90, 0x90, 0xF0] ++ [0x20, 0x60, 0x20, 0x20, 0x70] ++
  [0xF0, 0x10, 0xF0, 0x80, 0xF0] ++ [0xF0, 0x10, 0xF0, 0x10, 0xF0] ++
  [0x90, 0x90, 0xF0, 0x10, 0x10] ++ [0xF0, 0x80, 0xF0, 0x10, 0xF0] ++
  [0xF0, 0x80, 0xF0, 0x90, 0xF0] ++ [0xF0, 0x10, 0x20, 0x40, 0x40] ++
  [0xF0, 0x90, 0xF0, 0x90, 0xF0] ++ [0xF0, 0x90, 0xF0, 0x10, 0xF0] ++
  [0xF0, 0x90, 0xF0, 0x90, 0x90] ++ [0xE0, 0x90, 0xE0, 0x90, 0xE0] ++
  [0xF0, 0x80, 0x80, 0x80, 0xF0] ++ [0xE0, 0x90, 0x90, 0x90, 0xE0] ++
  [0xF0, 0x80, 0xF0, 0x80, 0xF0] ++ [0xF0, 0x80, 0xF0, 0x80, 0x80]

/-- The value of DRAW_EDGE. DESIGN CHOICE, unsafe, entry 6: the spec's default. -/
def drawEdge : DrawEdge := .clip

/-- The value of KEY_SELECT. DESIGN CHOICE, unsafe, entry 7: the spec's default. -/
def keySelect : KeySelect := .lowest

/-- The free input byte `rnd` of each step (40_step_cycle.md R137): "any value 0 to 255, chosen freely and
independently for every step, under no law". It has no body. Entry 1, safe. -/
opaque rndInput : Nat → Byte

/-- The free choice among the pressed keys under KEY_SELECT = any (92 D13). It has no body. Entry 7. -/
opaque keyChoice : Nat → Nat

end Config

end Sys2Proof
end

