-- ==== Sys2Proof/Machine/State.lean ====
section
/-! DEFINITION. The whole state of c8core as plain data (spec/10_state.md R20 to R35), the reasons a step could stop, and
the state after `init` (R36). -/

namespace Sys2Proof.Machine

/-- Main memory (R21): (address, byte) pairs, addresses rising, holding only the bytes that differ from what `init`
leaves (entry 12). -/
abbrev Memory := List Host.Cell

/-- The framebuffer (R29): 32 rows, row 0 the top one, of 64 cells, column 0 the leftmost; `true` is 1. -/
abbrev Framebuffer := Vector (Vector Bool 64) 32

/-- The halt causes of 60_exceptions.md R260, codes 0 to 6 in this order. -/
inductive HaltCause where
  /-- 0: no halt yet (`init`). -/
  | none
  /-- 1: the host's `stop` (R267). -/
  | stopRequest
  /-- 2: the fetch was refused (R261). -/
  | pcBounds
  /-- 3: an illegal word (R262). -/
  | decodeError
  /-- 4: 00EE with sp = 0 (R263). -/
  | stackUnderflow
  /-- 5: 2NNN with sp = 16 (R264). -/
  | stackOverflow
  /-- 6: DXYN, FX33, FX55 or FX65 would pass 0xFFF (R265). -/
  | indexBounds
deriving DecidableEq, Repr

/-- The whole machine (R20), and the model's own two input fields (entry 1). -/
structure State where
  /-- Main memory, R21. -/
  mem : Memory
  /-- V0 to VF, R22, R23. -/
  V : Vector Byte 16
  /-- The program counter, R24. -/
  pc : Word
  /-- The call stack's entries, R25. -/
  stack : Vector Word 16
  /-- The stack pointer, 0 to 16, R25. -/
  sp : Fin 17
  /-- The index register, R26. -/
  I : Word
  /-- The delay timer, R27. -/
  DT : Byte
  /-- The sound timer, R28. -/
  ST : Byte
  /-- The framebuffer, R29. -/
  fb : Framebuffer
  /-- The keypad, `true` = pressed, R30. -/
  key : Vector Bool 16
  /-- R31. -/
  needsRedraw : Bool
  /-- Completed steps, CYCLES_WIDTH = 64 bits, R32. DESIGN CHOICE, entry 8. -/
  cycles : BitVec 64
  /-- The run flag, `true` = RUNNING, R33. -/
  on : Bool
  /-- R34. -/
  haltCause : HaltCause
  /-- R34. -/
  haltOpcode : Word
  /-- R34. -/
  haltAddr : Word
  /-- MODEL's own: the input byte `rnd` of the current step (40_step_cycle.md R137), entry 1. -/
  rnd : Byte
  /-- MODEL's own: how many input bytes have been taken, entry 1. -/
  draws : Nat
deriving DecidableEq, Repr

/-- Reasons a step stops with a fault. -/
inductive Fault where
  /-- A memory primitive was used above 0xFFF, where 20_memory.md R62 does not define it. Raised by `fetchWord`,
  `loadBytes` and `storeBytes` of Machine/Ops.lean; safe. The bound checks of R68 and R69 come first, so no
  instruction and no step reaches it. Entry 13. -/
  | outsideMemory (addr : Nat)
deriving DecidableEq, Repr

/-- Reasons an instruction has no meaning in the model. -/
inductive Refusal where
  /-- Raised by an arm of `exec` whose instruction has no meaning yet; no arm does. Safe. -/
  | notModelled (mnemonic : String)
deriving DecidableEq, Repr

/-- What executing an instruction, or a step, answers. -/
abbrev Result := Host.Outcome State Fault Refusal

/-- The state after `init` (R36): everything zero but the font, which is what an unlisted byte of memory reads as, and
pc. `rnd` and `draws` are the model's own: DESIGN CHOICE, entry 1. -/
def State.reset : State where
  mem := []
  V := Vector.replicate 16 0
  pc := BitVec.ofNat 16 Config.progBase
  stack := Vector.replicate 16 0
  sp := 0
  I := 0
  DT := 0
  ST := 0
  fb := Vector.replicate 32 (Vector.replicate 64 false)
  key := Vector.replicate 16 false
  needsRedraw := false
  cycles := 0
  on := false
  haltCause := .none
  haltOpcode := 0
  haltAddr := 0
  rnd := 0
  draws := 0

end Sys2Proof.Machine
end

