-- ==== Sys2Proof/Machine/Ops.lean ====
section
/-! DEFINITION. The named operations over the state: memory (spec/20_memory.md), registers, the stack, the framebuffer
cells and keys (spec/00_scope.md R8), the halt procedure (spec/60_exceptions.md R266) and the phases of a step that
surround the instruction (spec/40_step_cycle.md R122 to R127). There is no return from a halt (R271): only the host's
`init` leaves one (Machine/Commands.lean). -/

namespace Sys2Proof.Machine

/-! ## Memory -/

/-- What an unlisted address reads as: its content after `init`, the font at FONT_BASE and zero elsewhere
(10_state.md R36, R37). Entry 12. -/
def resetByte (a : Nat) : Byte :=
  if Config.fontBase ≤ a then Config.fontRom.getD (a - Config.fontBase) 0 else 0

/-- The byte at an address. -/
def Memory.byteAt : Memory → Nat → Byte
  | [], a => resetByte a
  | (b, v) :: m, a => if b = a then v else Memory.byteAt m a

/-- A cell put in its place among rising addresses. -/
def Memory.insertCell (a : Nat) (v : Byte) : Memory → Memory
  | [] => [(a, v)]
  | (b, u) :: m => if a < b then (a, v) :: (b, u) :: m else (b, u) :: Memory.insertCell a v m

/-- Memory without a cell for an address. -/
def Memory.eraseCell (a : Nat) : Memory → Memory
  | [] => []
  | (b, u) :: m => if b = a then Memory.eraseCell a m else (b, u) :: Memory.eraseCell a m

/-- One byte written, in canonical form: no cell holds what its address reads as unlisted. -/
def Memory.write (m : Memory) (a : Nat) (v : Byte) : Memory :=
  if v = resetByte a then m.eraseCell a else (m.eraseCell a).insertCell a v

/-- The canonical form: addresses strictly rising, all inside memory, no cell equal to the unlisted byte. -/
abbrev Memory.wf (m : Memory) : Prop :=
  m.Pairwise (fun c d => c.1 < d.1) ∧ ∀ c ∈ m, c.1 ≤ Config.memLast ∧ c.2 ≠ resetByte c.1

/-- MemRead(addr, 1), defined inside memory only (R62). -/
def memRead (m : Memory) (a : Nat) : Option Byte :=
  if a ≤ Config.memLast then some (m.byteAt a) else none

/-- MemWrite(addr, 1, v), defined inside memory only (R62). -/
def memWrite (m : Memory) (a : Nat) (v : Byte) : Option Memory :=
  if a ≤ Config.memLast then some (m.write a v) else none

/-- The `n` bytes from `a` upward, one access each (R64, R66). -/
def readBytes (m : Memory) (a : Nat) : Nat → Option (List Byte)
  | 0 => some []
  | n + 1 =>
    match memRead m a, readBytes m (a + 1) n with
    | some b, some bs => some (b :: bs)
    | _, _ => none

/-- Bytes stored from `a` upward, one access each (R64, R66). -/
def writeBytes (m : Memory) (a : Nat) : List Byte → Option Memory
  | [] => some m
  | b :: bs =>
    match memWrite m a b with
    | some m' => writeBytes m' (a + 1) bs
    | none => none

/-- The byte of the state's memory at an address. -/
def State.byteAt (s : State) (a : Nat) : Byte := s.mem.byteAt a

/-- An instruction's reads: the `n` bytes from `a`, given to what the instruction does with them; a fault if one of
them lies outside memory (entry 13). -/
def loadBytes (a n : Nat) (s : State) (use : List Byte → State) : Result :=
  match readBytes s.mem a n with
  | some bs => .next (use bs)
  | none => .fault (.outsideMemory (a + n - 1))

/-- An instruction's writes: bytes stored from `a` upward; a fault if one of them lies outside memory (entry 13). -/
def storeBytes (a : Nat) (bs : List Byte) (s : State) : Result :=
  match writeBytes s.mem a bs with
  | some m => .next { s with mem := m }
  | none => .fault (.outsideMemory (a + bs.length - 1))

/-! ## Registers, stack, framebuffer cells, keys (00_scope.md R8) -/

/-- V[x]. -/
def State.reg (s : State) (x : Reg) : Byte := s.V.get x

/-- V[x] <- v. -/
def State.setReg (s : State) (x : Reg) (v : Byte) : State := { s with V := s.V.set x.val v x.isLt }

/-- Consecutive registers written from number `r` upward, one after another (R205); a number above 15 names none. -/
def setRegsFrom (V : Vector Byte 16) (r : Nat) : List Byte → Vector Byte 16
  | [] => V
  | b :: bs => setRegsFrom (if h : r < 16 then V.set r b h else V) (r + 1) bs

/-- V[0], V[1], … <- the bytes of the list. -/
def State.setRegs (s : State) (bs : List Byte) : State := { s with V := setRegsFrom s.V 0 bs }

/-- The registers V[0] to V[x], in ascending order (R204). -/
def State.regsTo (s : State) (x : Reg) : List Byte := s.V.toList.take (x.val + 1)

/-- pc <- target. -/
def State.setPc (s : State) (target : Word) : State := { s with pc := target }

/-- I <- v. -/
def State.setIndex (s : State) (v : Word) : State := { s with I := v }

/-- DT <- v. -/
def State.setDelayTimer (s : State) (v : Byte) : State := { s with DT := v }

/-- ST <- v. -/
def State.setSoundTimer (s : State) (v : Byte) : State := { s with ST := v }

/-- stack[k]. -/
def State.stackAt (s : State) (k : Fin 16) : Word := s.stack.get k

/-- A word pushed on the call stack: stack[sp] <- w, sp <- sp + 1; `none` when sp = 16 (R25, R153). -/
def State.push (s : State) (w : Word) : Option State :=
  if h : s.sp.val < 16 then
    some { s with stack := s.stack.set s.sp.val w h, sp := ⟨s.sp.val + 1, by omega⟩ }
  else none

/-- The newest word popped: sp <- sp - 1, the word is stack[sp], which is not cleared; `none` when sp = 0 (R25,
R151). -/
def State.pop (s : State) : Option (Word × State) :=
  if h : 0 < s.sp.val then
    some (s.stackAt ⟨s.sp.val - 1, by omega⟩, { s with sp := ⟨s.sp.val - 1, by omega⟩ })
  else none

/-- fb[r][c] of a framebuffer. -/
def Framebuffer.cell (fb : Framebuffer) (r : Fin 32) (c : Fin 64) : Bool := (fb.get r).get c

/-- fb[r][c] <- fb[r][c] ^ 1. -/
def Framebuffer.flip (fb : Framebuffer) (r : Fin 32) (c : Fin 64) : Framebuffer :=
  fb.set r.val ((fb.get r).set c.val (!fb.cell r c) c.isLt) r.isLt

/-- Every cell 0 (R221). -/
def Framebuffer.blank : Framebuffer := Vector.replicate 32 (Vector.replicate 64 false)

/-- fb[r][c]. -/
def State.pixel (s : State) (r : Fin 32) (c : Fin 64) : Bool := s.fb.cell r c

/-- The framebuffer and needsRedraw as a display instruction leaves them: it sets the flag on every execution (R31). -/
def State.setDisplay (s : State) (fb : Framebuffer) : State := { s with fb := fb, needsRedraw := true }

/-- key[k] = 1. -/
def State.keyDown (s : State) (k : Fin 16) : Bool := s.key.get k

/-! ## Halts (60_exceptions.md) -/

/-- The cause codes of R260. -/
def HaltCause.code : HaltCause → BitVec 3
  | .none => 0
  | .stopRequest => 1
  | .pcBounds => 2
  | .decodeError => 3
  | .stackUnderflow => 4
  | .stackOverflow => 5
  | .indexBounds => 6

/-- The halt procedure `raise Cause(opc, addr)`, R266: the run flag goes off and the diagnostics are written, nothing
else. -/
def raise (cause : HaltCause) (opc addr : Word) (s : State) : State :=
  { s with on := false, haltCause := cause, haltOpcode := opc, haltAddr := addr }

/-- `raise Cause(w, pc - 2)` in the execute phase of the instruction `i`, whose opcode is w (R126). Entry 10. -/
def raiseIn (cause : HaltCause) (i : Instr) (s : State) : State := raise cause (encode i) (s.pc - 2) s

/-! ## The phases around the instruction (40_step_cycle.md) -/

/-- The input byte of the step taken in (R120, R137). Entry 1. -/
def takeInput (rnd : Byte) (s : State) : State := { s with rnd := rnd, draws := s.draws + 1 }

/-- One timer counted down, stopping at 0 (R122). -/
def countDown (t : Byte) : Byte := if 0 < t.toNat then BitVec.ofNat 8 (t.toNat - 1) else t

/-- Phase 1, timer tick (R122). -/
def tick (s : State) : State := { s with DT := countDown s.DT, ST := countDown s.ST }

/-- The output `tone` of the step taken from a state: ST > 0 before the decrement, and 0 when STOPPED (R28, R121,
R122). Entry 2. -/
def tone (s : State) : Bool := s.on && decide (0 < s.ST.toNat)

/-- Whether the fetch bound check of phase 2 refuses the fetch (R69, R123). -/
def fetchRefused (s : State) : Bool := decide (Config.pcFetchLast < s.pc.toNat)

/-- MemRead(pc, 2): the big-endian word at pc (R62, R63). -/
def fetchWord (s : State) : Option Word :=
  match memRead s.mem s.pc.toNat, memRead s.mem (s.pc.toNat + 1) with
  | some hi, some lo => some (joinBytes hi lo)
  | _, _ => none

/-- The advance of pc in phase 2, and a skip: pc <- pc + 2 (R123, R155). -/
def advance (s : State) : State := { s with pc := s.pc + 2 }

/-- Phase 6, count: reached only by a step that did not raise, which is one whose run flag is still on (R127). -/
def countCycle (s : State) : State := if s.on then { s with cycles := s.cycles + 1 } else s

end Sys2Proof.Machine
end

