-- ==== Sys2Proof/Machine/Flags.lean ====
section
/-! DEFINITION. The results and flags of the 8-bit arithmetic (spec/42_alu.md R170, R172, R177 to R181, R183), and the
write order of the flag-writing instructions. Operands are taken as integers, computed exactly, and narrowed once. -/

namespace Sys2Proof.Machine

/-- A flag as the byte VF holds: 1 or 0. -/
def flagByte (b : Bool) : Byte := if b then 1 else 0

/-- (a + b) mod 256 (R172, R177). -/
def sumByte (a b : Byte) : Byte := BitVec.ofNat 8 (a.toNat + b.toNat)

/-- The carry: a + b > 255 (R177). -/
def carryFlag (a b : Byte) : Byte := flagByte (decide (255 < a.toNat + b.toNat))

/-- (a - b) mod 256 (R178, R180). -/
def differenceByte (a b : Byte) : Byte := BitVec.ofInt 8 ((a.toNat : Int) - b.toNat)

/-- No borrow: a >= b (R178, R180). -/
def noBorrowFlag (a b : Byte) : Byte := flagByte (decide (b.toNat ≤ a.toNat))

/-- a >> 1 (R179). -/
def shiftRightByte (a : Byte) : Byte := BitVec.ofNat 8 (a.toNat / 2)

/-- The bit a right shift moves out: a[0] (R179). -/
def lowBitFlag (a : Byte) : Byte := BitVec.ofNat 8 (a.toNat % 2)

/-- (a << 1) mod 256 (R181). -/
def shiftLeftByte (a : Byte) : Byte := BitVec.ofNat 8 (a.toNat * 2)

/-- The bit a left shift moves out: a[7] (R181). -/
def highBitFlag (a : Byte) : Byte := BitVec.ofNat 8 (a.toNat / 128)

/-- The writes of a flag-writing instruction, in the table's order: VF first, V[x] second, so that x = F keeps the
result (R170). -/
def setFlagThenReg (x : Reg) (flag result : Byte) (s : State) : State := (s.setReg VF flag).setReg x result

end Sys2Proof.Machine
end

