-- ==== Sys2Proof/Machine/Operands.lean ====
section
/-! DEFINITION. The operand forms of c8core (spec/30_encoding.md R93, spec/43_index_memory.md R206, spec/45_keypad_timers.md
R240): immediates used as their bits read, registers V[x] and V[y], the implicit V[0] and I, the effective address
I + offset with its bound check, and the key a register selects. -/

namespace Sys2Proof.Machine

/-- nnn as a 16-bit value, zero-extended (R93, R200). -/
def target (nnn : Addr12) : Word := BitVec.ofNat 16 nnn.toNat

/-- nnn + V[0] in 16 bits (R154). -/
def targetOffset (nnn : Addr12) (s : State) : Word := BitVec.ofNat 16 (nnn.toNat + (s.reg 0).toNat)

/-- The address I, as an unbounded integer (R62, R206). -/
def indexAddr (s : State) : Nat := s.I.toNat

/-- The index bound check: whether the last address I + k lies above 0xFFF (20_memory.md R68). -/
def indexOverruns (s : State) (k : Nat) : Bool := decide (Config.memLast < indexAddr s + k)

/-- The key number a register selects: V[x][3:0] (R240). -/
def keyNumber (s : State) (x : Reg) : Fin 16 := ⟨(s.reg x).toNat % 16, Nat.mod_lt _ (by decide)⟩

/-- The sixteen key numbers in ascending order. -/
def keyNumbers : List (Fin 16) := [0, 1, 2, 3, 4, 5, 6, 7] ++ [8, 9, 10, 11, 12, 13, 14, 15]

/-- The pressed keys in ascending order. -/
def pressedKeys (s : State) : List (Fin 16) := keyNumbers.filter (fun k => s.keyDown k)

/-- The key FX0A returns, `none` when no key is pressed: the least pressed one under KEY_SELECT = lowest (R244), a free
choice among the pressed ones under `any` (92 D13). -/
def selectedKey (sel : KeySelect) (s : State) : Option (Fin 16) :=
  match sel with
  | .lowest => (pressedKeys s).head?
  | .any => (pressedKeys s)[Config.keyChoice s.draws % (pressedKeys s).length]?

/-- A key number as a register value (R244). -/
def keyByte (k : Fin 16) : Byte := BitVec.ofNat 8 k.val

/-- The decimal digits of a byte, most significant first (R203). -/
def bcdDigits (v : Byte) : List Byte :=
  [BitVec.ofNat 8 (v.toNat / 100), BitVec.ofNat 8 (v.toNat / 10 % 10), BitVec.ofNat 8 (v.toNat % 10)]

/-- Five times a byte, as a 16-bit value (R202). -/
def fontOffset (v : Byte) : Word := BitVec.ofNat 16 (v.toNat * 5)

/-- I + V[x] modulo 65536 (R201). -/
def indexSum (s : State) (x : Reg) : Word := BitVec.ofNat 16 (s.I.toNat + (s.reg x).toNat)

end Sys2Proof.Machine
end

