-- ==== Sys2Proof/Machine/Alu.lean ====
section
/-! DEFINITION. Register, arithmetic, logic and random instructions (spec/42_alu.md). Operands are read from `s`, before
any write (R170). -/

namespace Sys2Proof.Machine

/-- 6XNN (R171). -/
def execLoadImm (x : Reg) (nn : Byte) (s : State) : Result := .next (s.setReg x nn)

/-- 7XNN: no flag (R172). -/
def execAddImm (x : Reg) (nn : Byte) (s : State) : Result := .next (s.setReg x (sumByte (s.reg x) nn))

/-- 8XY0 (R173). -/
def execMove (x y : Reg) (s : State) : Result := .next (s.setReg x (s.reg y))

/-- 8XY1: no flag (R174). -/
def execOr (x y : Reg) (s : State) : Result := .next (s.setReg x (s.reg x ||| s.reg y))

/-- 8XY2: no flag (R175). -/
def execAnd (x y : Reg) (s : State) : Result := .next (s.setReg x (s.reg x &&& s.reg y))

/-- 8XY3: no flag (R176). -/
def execXor (x y : Reg) (s : State) : Result := .next (s.setReg x (s.reg x ^^^ s.reg y))

/-- 8XY4 (R177). -/
def execAdd (x y : Reg) (s : State) : Result :=
  .next (setFlagThenReg x (carryFlag (s.reg x) (s.reg y)) (sumByte (s.reg x) (s.reg y)) s)

/-- 8XY5 (R178). -/
def execSub (x y : Reg) (s : State) : Result :=
  .next (setFlagThenReg x (noBorrowFlag (s.reg x) (s.reg y)) (differenceByte (s.reg x) (s.reg y)) s)

/-- 8XY6: V[y] is neither read nor written (R179). -/
def execShr (x _y : Reg) (s : State) : Result :=
  .next (setFlagThenReg x (lowBitFlag (s.reg x)) (shiftRightByte (s.reg x)) s)

/-- 8XY7: the operands of 8XY5 reversed, the destination is V[x] (R180). -/
def execSubn (x y : Reg) (s : State) : Result :=
  .next (setFlagThenReg x (noBorrowFlag (s.reg y) (s.reg x)) (differenceByte (s.reg y) (s.reg x)) s)

/-- 8XYE: V[y] is neither read nor written (R181). -/
def execShl (x _y : Reg) (s : State) : Result :=
  .next (setFlagThenReg x (highBitFlag (s.reg x)) (shiftLeftByte (s.reg x)) s)

/-- CXNN: the step's free input byte, masked (R182, R137). Entry 1. -/
def execRand (x : Reg) (nn : Byte) (s : State) : Result := .next (s.setReg x (s.rnd &&& nn))

end Sys2Proof.Machine
end

