-- ==== Sys2Proof/Machine/Display.lean ====
section
/-! DEFINITION. Display instructions (spec/44_display.md): 00E0 and DXYN, and the drawing of a sprite pixel by pixel. -/

namespace Sys2Proof.Machine

/-- The cell a sprite pixel at (row, col) falls on: none when it is clipped; reduced to the screen under DRAW_EDGE =
wrap (R222, 92 D10). -/
def screenCell (edge : DrawEdge) (row col : Nat) : Option (Fin 32 × Fin 64) :=
  match edge with
  | .clip => if h : row < 32 ∧ col < 64 then some (⟨row, h.1⟩, ⟨col, h.2⟩) else none
  | .wrap => some (⟨row % 32, Nat.mod_lt _ (by decide)⟩, ⟨col % 64, Nat.mod_lt _ (by decide)⟩)

/-- One set sprite pixel: its cell is flipped, and a cell that was 1 is a collision (R222). The pair is the framebuffer
and the collision so far. -/
def drawPixel (edge : DrawEdge) (row col : Nat) (acc : Framebuffer × Bool) : Framebuffer × Bool :=
  match screenCell edge row col with
  | some (r, c) => (acc.1.flip r c, acc.2 || acc.1.cell r c)
  | none => acc

/-- The last `k` pixels of a sprite byte, from its bit k - 1 down to bit 0, at columns `col` upward: bit 7 of the byte is
the leftmost pixel (R220). -/
def drawBits (edge : DrawEdge) (b : Byte) (row col : Nat) : Nat → Framebuffer × Bool → Framebuffer × Bool
  | 0, acc => acc
  | k + 1, acc =>
    drawBits edge b row (col + 1) k (if b.getLsbD k then drawPixel edge row col acc else acc)

/-- The rows of a sprite, from `row` downward (R222). -/
def drawSprite (edge : DrawEdge) (col : Nat) : List Byte → Nat → Framebuffer × Bool → Framebuffer × Bool
  | [], _, acc => acc
  | b :: bs, row, acc => drawSprite edge col bs (row + 1) (drawBits edge b row col 8 acc)

/-- What DXYN does with the sprite's bytes: the pixels, then VF <- collision and needsRedraw <- 1 (R222). The start
position is (V[x], V[y]) as the registers read. -/
def drawAt (x y : Reg) (s : State) (bytes : List Byte) : State :=
  (s.setDisplay (drawSprite Config.drawEdge (s.reg x).toNat bytes (s.reg y).toNat (s.fb, false)).1).setReg VF
    (flagByte (drawSprite Config.drawEdge (s.reg x).toNat bytes (s.reg y).toNat (s.fb, false)).2)

/-- 00E0 (R221). -/
def execClearScreen (s : State) : Result := .next (s.setDisplay Framebuffer.blank)

/-- DXYN: with n = 0 no bound check and no row, but VF and needsRedraw are written (R222). -/
def execDraw (x y : Reg) (n : Nibble) (s : State) : Result :=
  if decide (0 < n.val) && indexOverruns s (n.val - 1) then .next (raiseIn .indexBounds (.draw x y n) s)
  else loadBytes (indexAddr s) n.val s (drawAt x y s)

end Sys2Proof.Machine
end

