-- ==== Sys2Proof/Machine/Flow.lean ====
section
/-! DEFINITION. Control transfer (spec/41_flow.md). In every meaning `s.pc` is already the address of the next sequential
instruction (spec/00_scope.md R8). -/

namespace Sys2Proof.Machine

/-- The skips' shared effect: pc <- pc + 2 when the condition holds (R155). -/
def skipIf (c : Bool) (s : State) : State := if c then advance s else s

/-- 0NNN: no effect (R150). -/
def execLegacyCall (_nnn : Addr12) (s : State) : Result := .next s

/-- 00EE: pop pc; StackUnderflow when nothing is on the stack, before any effect (R151, R263). -/
def execRet (s : State) : Result :=
  match s.pop with
  | some (w, t) => .next (t.setPc w)
  | none => .next (raiseIn .stackUnderflow .ret s)

/-- 1NNN (R152). -/
def execJump (nnn : Addr12) (s : State) : Result := .next (s.setPc (target nnn))

/-- 2NNN: push pc, jump; StackOverflow when the stack is full, before any effect (R153, R264). -/
def execCall (nnn : Addr12) (s : State) : Result :=
  match s.push s.pc with
  | some t => .next (t.setPc (target nnn))
  | none => .next (raiseIn .stackOverflow (.call nnn) s)

/-- BNNN (R154). -/
def execJumpOffset (nnn : Addr12) (s : State) : Result := .next (s.setPc (targetOffset nnn s))

/-- 3XNN (R155). -/
def execSkipEqImm (x : Reg) (nn : Byte) (s : State) : Result := .next (skipIf (s.reg x == nn) s)

/-- 4XNN (R156). -/
def execSkipNeqImm (x : Reg) (nn : Byte) (s : State) : Result := .next (skipIf (s.reg x != nn) s)

/-- 5XY0 (R157). -/
def execSkipEqReg (x y : Reg) (s : State) : Result := .next (skipIf (s.reg x == s.reg y) s)

/-- 9XY0 (R158). -/
def execSkipNeqReg (x y : Reg) (s : State) : Result := .next (skipIf (s.reg x != s.reg y) s)

end Sys2Proof.Machine
end

