-- ==== Sys2Proof/Machine/IndexMemory.lean ====
section
/-! DEFINITION. Index register and memory instructions (spec/43_index_memory.md). The index bound check covers the whole
range before the first access (spec/20_memory.md R68); I is never changed by an access (R206). -/

namespace Sys2Proof.Machine

/-- ANNN (R200). -/
def execLoadIndex (nnn : Addr12) (s : State) : Result := .next (s.setIndex (target nnn))

/-- FX1E: no flag, no bound check (R201). -/
def execAddIndex (x : Reg) (s : State) : Result := .next (s.setIndex (indexSum s x))

/-- FX29: FONT_BASE is not added (R202). -/
def execFontAddr (x : Reg) (s : State) : Result := .next (s.setIndex (fontOffset (s.reg x)))

/-- FX33 (R203). -/
def execBcd (x : Reg) (s : State) : Result :=
  if indexOverruns s 2 then .next (raiseIn .indexBounds (.bcd x) s)
  else storeBytes (indexAddr s) (bcdDigits (s.reg x)) s

/-- FX55 (R204). -/
def execStoreRegs (x : Reg) (s : State) : Result :=
  if indexOverruns s x.val then .next (raiseIn .indexBounds (.storeRegs x) s)
  else storeBytes (indexAddr s) (s.regsTo x) s

/-- FX65 (R205). -/
def execLoadRegs (x : Reg) (s : State) : Result :=
  if indexOverruns s x.val then .next (raiseIn .indexBounds (.loadRegs x) s)
  else loadBytes (indexAddr s) (x.val + 1) s s.setRegs

end Sys2Proof.Machine
end

