-- ==== Sys2Proof/Machine/KeypadTimers.lean ====
section
/-! DEFINITION. Keypad and timer instructions (spec/45_keypad_timers.md). -/

namespace Sys2Proof.Machine

/-- EX9E (R241). -/
def execSkipKey (x : Reg) (s : State) : Result := .next (skipIf (s.keyDown (keyNumber s x)) s)

/-- EXA1 (R242). -/
def execSkipNotkey (x : Reg) (s : State) : Result := .next (skipIf (!s.keyDown (keyNumber s x)) s)

/-- FX0A: with no key pressed pc goes back to this instruction (R244). -/
def execWaitKey (x : Reg) (s : State) : Result :=
  match selectedKey Config.keySelect s with
  | some k => .next (s.setReg x (keyByte k))
  | none => .next (s.setPc (s.pc - 2))

/-- FX07 (R245). -/
def execGetDelay (x : Reg) (s : State) : Result := .next (s.setReg x s.DT)

/-- FX15 (R246). -/
def execSetDelay (x : Reg) (s : State) : Result := .next (s.setDelayTimer (s.reg x))

/-- FX18 (R247). -/
def execSetSound (x : Reg) (s : State) : Result := .next (s.setSoundTimer (s.reg x))

end Sys2Proof.Machine
end

