-- ==== Sys2Proof/Machine/Cycle.lean ====
section
/-! DEFINITION. One whole step with its input byte (spec/40_step_cycle.md R129): tick, fetch, decode, dispatch, execute,
count. The output `tone` of the step is `tone` of the state it is taken from (Machine/Ops.lean). -/

namespace Sys2Proof.Machine

/-- Phases 3 to 6 on a fetched word, pc already advanced (R124 to R127): an illegal word raises DecodeError, an
instruction runs and, if it did not raise, is counted. -/
def runWord (w : Word) (s : State) : Result :=
  match decode w with
  | none => .next (raise .decodeError w (s.pc - 2) s)
  | some i =>
    match exec i s with
    | .next t => .next (countCycle t)
    | .fault f => .fault f
    | .refused r => .refused r

/-- `step(rnd)` of R129; a STOPPED engine changes nothing (R121). -/
def coreStep (rnd : Byte) (s : State) : Result :=
  if s.on then
    if fetchRefused s then .next (raise .pcBounds 0 s.pc (tick (takeInput rnd s)))
    else
      match fetchWord s with
      | some w => runWord w (advance (tick (takeInput rnd s)))
      | none => .fault (.outsideMemory (s.pc.toNat + 1))
  else .next s

end Sys2Proof.Machine
end

