-- ==== Sys2Proof/Machine/Step.lean ====
section
/-! DEFINITION. The machine's step: `coreStep` with the free input byte of this step (spec/40_step_cycle.md R137), and the
placing of one instruction where the next step fetches. -/

namespace Sys2Proof.Machine

/-- One step of c8core. The input byte is the free value numbered by how many were taken before. Entry 1. -/
def step (s : State) : Host.Outcome State Fault Refusal := coreStep (Config.rndInput s.draws) s

/-- The pc from which the placed instruction is fetched: the state's own, or PROG_BASE when a fetch there would be
refused (R69). Entry 14. -/
def State.fetchPc (s : State) : Word := if fetchRefused s then BitVec.ofNat 16 Config.progBase else s.pc

/-- `s` with the instruction placed where the next step fetches it, and the engine RUNNING, so that this step runs it:
it stands for the host's `load` and `start` (R303). Entries 3 and 14. -/
def State.withFetchWord (s : State) (nbits w : Nat) : State :=
  { s with
    mem := (s.mem.write s.fetchPc.toNat (highByte (tableWord nbits w))).write (s.fetchPc.toNat + 1)
      (lowByte (tableWord nbits w))
    pc := s.fetchPc
    on := true
    haltCause := .none }

end Sys2Proof.Machine
end

