-- ==== Sys2Proof/Machine/Commands.lean ====
section
/-! DEFINITION. The host's commands between steps (spec/40_step_cycle.md R130 to R136, spec/20_memory.md R75), and a
session of them. They are no part of `step`: the host acts between steps only (spec/00_scope.md R5). Entry 3. -/

namespace Sys2Proof.Machine

/-- What the host can do between steps, `step` with its input byte among it (R5). -/
inductive HostCommand where
  /-- `init`, also named `reset` (R131). -/
  | init
  /-- `load(image)` (R75, R134). -/
  | load (image : List Byte)
  /-- `start` (R132). -/
  | start
  /-- `stop` (R133). -/
  | stop
  /-- `step(rnd)` (R120). -/
  | step (rnd : Byte)
  /-- `key_write(k, v)` (R135). -/
  | keyWrite (k : Fin 16) (v : Byte)
  /-- The redraw acknowledge (R136). -/
  | redrawAck
deriving DecidableEq, Repr

/-- The writes of `init`: every field of the spec to its reset value (R131), made only while the run flag is off, as
20_memory.md R71 says of every write of the host to memory. `draws` is the model's own and goes on, so that a new run's
input bytes are not the old run's; entry 15. -/
def initWrite (s : State) : State := if s.on then s else { State.reset with draws := s.draws }

/-- `init`: admitted in any run state (R130's table, R131). From RUNNING the run flag goes off first, and the writes follow
with it off, so that R71 holds as well. That order inside the command is DESIGN CHOICE, entry 19: the spec gives none, and
no ruling of it reconciles R71 with R130 and R131. -/
def hostInit (s : State) : State := initWrite { s with on := false }

/-- Bytes written from an address upward (R75). -/
def Memory.writeImage (m : Memory) (a : Nat) : List Byte → Memory
  | [] => m
  | b :: bs => Memory.writeImage (m.write a b) (a + 1) bs

/-- When `load` is admitted: before a run, and for an image that fits (R75). -/
def loadAdmitted (image : List Byte) (s : State) : Bool :=
  !s.on && decide (s.haltCause = .none) && decide (image.length ≤ Config.maxImage)

/-- `load(image)`: the image at 0x200; any other load changes nothing (R75). -/
def hostLoad (image : List Byte) (s : State) : State :=
  if loadAdmitted image s then { s with mem := s.mem.writeImage Config.progBase image } else s

/-- `start` takes effect only before a run (R132). -/
def hostStart (s : State) : State :=
  if !s.on && decide (s.haltCause = .none) then { s with on := true } else s

/-- `stop` takes effect only while RUNNING (R133, R267). -/
def hostStop (s : State) : State := if s.on then raise .stopRequest 0 s.pc s else s

/-- `key_write(k, v)`: any nonzero value is pressed (R135). -/
def hostKeyWrite (k : Fin 16) (v : Byte) (s : State) : State :=
  { s with key := s.key.set k.val (decide (v ≠ 0)) k.isLt }

/-- The redraw acknowledge (R136). -/
def hostRedrawAck (s : State) : State := { s with needsRedraw := false }

/-! ## What the host reads of the display (44_display.md R223) -/

/-- The index of cell (r, c) in the host's linear array: row-major, r * 64 + c (10_state.md R29; 92 D10, entry 6). -/
def cellIndex (r : Fin 32) (c : Fin 64) : Fin 2048 := ⟨r.val * 64 + c.val, by omega⟩

/-- The row of the cell at an index of the linear array. -/
def indexRow (k : Fin 2048) : Fin 32 := ⟨k.val / 64, by omega⟩

/-- The column of the cell at an index of the linear array. -/
def indexCol (k : Fin 2048) : Fin 64 := ⟨k.val % 64, Nat.mod_lt _ (by decide)⟩

/-- The framebuffer as a host reads it: 2048 bytes, one a cell, each 0 or 1, row-major (R223). -/
def hostFramebuffer (s : State) : Vector Byte 2048 :=
  Vector.ofFn (fun k => flagByte (s.pixel (indexRow k) (indexCol k)))

/-! ## Commands in sequence -/

/-- One command's effect. -/
def hostAct (c : HostCommand) (s : State) : Result :=
  match c with
  | .init => .next (hostInit s)
  | .load image => .next (hostLoad image s)
  | .start => .next (hostStart s)
  | .stop => .next (hostStop s)
  | .step rnd => coreStep rnd s
  | .keyWrite k v => .next (hostKeyWrite k v s)
  | .redrawAck => .next (hostRedrawAck s)

/-- A session: the commands in order (R303). -/
def session : List HostCommand → State → Result
  | [], s => .next s
  | c :: cs, s =>
    match hostAct c s with
    | .next t => session cs t
    | .fault f => .fault f
    | .refused r => .refused r

/-- The output `tone` of one command: a `step` has one, no other command does (R12, R122). -/
def commandTone (c : HostCommand) (s : State) : List Bool :=
  match c with
  | .step _ => [tone s]
  | .init | .load _ | .start | .stop | .keyWrite _ _ | .redrawAck => []

/-- The outputs `tone` of a session's steps, in order (R12, R122). -/
def sessionTones : List HostCommand → State → List Bool
  | [], _ => []
  | c :: cs, s =>
    match hostAct c s with
    | .next t => commandTone c s ++ sessionTones cs t
    | .fault _ => []
    | .refused _ => []

end Sys2Proof.Machine
end

