-- ==== Sys2Proof/Safety.lean ====
section
/-! DEFINITION. What counts as a safe run, and the terms in which claims are made: the invariant of spec/10_state.md R38,
what a fetch finds, the state an instruction executes in, and what an instruction leaves unchanged (its frame), said
through the reads of one register, one byte, one cell. -/

namespace Sys2Proof.Machine

/-! ## The invariant and the ways a run ends -/

/-- What R24, R25 and R38 say of every point between steps: memory in canonical form, hence nothing above 0xFFF;
pc at most 0x10FE; every stack entry at most 0xFFF; a RUNNING engine has no halt recorded. That sp is at most 16 and
that cells and keys are 0 or 1 is their type. -/
abbrev State.Inv (s : State) : Prop :=
  s.mem.wf ∧ s.pc.toNat ≤ 0x10FE ∧ (∀ k, (s.stackAt k).toNat ≤ 0xFFF) ∧ (s.on = true → s.haltCause = .none)

/-- The engine has ended its run and takes no more steps until `init` (40_step_cycle.md R130). -/
abbrev State.Terminal (s : State) : Prop := s.on = false ∧ s.haltCause ≠ .none

/-- The run ended in a condition the source calls fatal (60_exceptions.md R260). -/
abbrev State.FatalHalt (s : State) : Prop :=
  s.on = false ∧ (s.haltCause = .decodeError ∨ s.haltCause = .stackUnderflow ∨ s.haltCause = .stackOverflow ∨
    s.haltCause = .indexBounds)

/-- A safe run: `n` steps, none of which faults or is refused or ends in a fatal halt. -/
def SafeRun : Nat → State → Prop
  | 0, s => ¬ s.FatalHalt
  | n + 1, s => ¬ s.FatalHalt ∧ ∃ t, step s = .next t ∧ SafeRun n t

/-- `n` steps in a row, stopping at the first fault or refusal. -/
def stepTimes : Nat → State → Result
  | 0, s => .next s
  | n + 1, s =>
    match step s with
    | .next t => stepTimes n t
    | .fault f => .fault f
    | .refused r => .refused r

/-! ## Fetching -/

/-- The engine is RUNNING, pc lets a fetch through, and `w` is the big-endian word of the two bytes at pc (R63, R69,
R123). -/
abbrev Fetches (s : State) (w : Word) : Prop :=
  s.on = true ∧ s.pc.toNat ≤ 0xFFD ∧
    w.toNat = (s.byteAt s.pc.toNat).toNat * 256 + (s.byteAt (s.pc.toNat + 1)).toNat

/-- The number `w` is the opcode of the instruction `i` (30_encoding.md R99). -/
abbrev EncodedAs (w : Nat) (i : Instr) : Prop := decode (BitVec.ofNat 16 w) = some i

/-- The next step runs the instruction `i`. -/
abbrev Runs (s : State) (i : Instr) : Prop := ∃ w, Fetches s w ∧ decode w = some i

/-- The state in which the next step's instruction executes: the input byte taken, both timers ticked, pc + 2 (R122,
R123, R137). -/
def State.fetched (s : State) : State :=
  { s with
    rnd := Config.rndInput s.draws
    draws := s.draws + 1
    DT := BitVec.ofNat 8 (s.DT.toNat - 1)
    ST := BitVec.ofNat 8 (s.ST.toNat - 1)
    pc := s.pc + 2 }

/-- The next fetch from `s` reads the word whose number is `w`, and the next step is phases 3 to 6 on that word (R123 to
R127). -/
def NextFetch (s : State) (w : Nat) : Prop :=
  ∃ v : Word, v.toNat = w ∧ Fetches s v ∧ fetchWord s = some v ∧ step s = runWord v s.fetched

/-- The byte at `a` once the bytes `bs` are stored from `base` upward: the stored one, else what memory held. -/
def byteAfterStore (s : State) (base : Nat) (bs : List Byte) (a : Nat) : Byte :=
  if base ≤ a then bs.getD (a - base) (s.byteAt a) else s.byteAt a

/-- The number of the big-endian word at `a` once the bytes `bs` are stored from `base` upward (20_memory.md R63, R73). -/
def wordAfterStore (s : State) (base : Nat) (bs : List Byte) (a : Nat) : Nat :=
  (byteAfterStore s base bs a).toNat * 256 + (byteAfterStore s base bs (a + 1)).toNat

/-! ## Frames: the second state holds what the first one held -/

/-- Every register but those listed. -/
def SameRegsBut (rs : List Reg) (s t : State) : Prop := ∀ r, r ∉ rs → t.reg r = s.reg r

/-- Every byte of memory. -/
def SameMem (s t : State) : Prop := ∀ a, t.byteAt a = s.byteAt a

/-- Every byte of memory outside the `n` bytes from `base`. -/
def SameMemBut (base n : Nat) (s t : State) : Prop := ∀ a, a < base ∨ base + n ≤ a → t.byteAt a = s.byteAt a

/-- The call stack: every entry and the stack pointer. -/
def SameStack (s t : State) : Prop := (∀ k, t.stackAt k = s.stackAt k) ∧ t.sp = s.sp

/-- Every framebuffer cell, and needsRedraw. -/
def SameDisplay (s t : State) : Prop := (∀ r c, t.pixel r c = s.pixel r c) ∧ t.needsRedraw = s.needsRedraw

/-- Both timers. -/
def SameTimers (s t : State) : Prop := t.DT = s.DT ∧ t.ST = s.ST

/-- The keypad, the count of steps and the input byte: what no instruction writes. -/
def SameInputs (s t : State) : Prop :=
  (∀ k, t.keyDown k = s.keyDown k) ∧ t.cycles = s.cycles ∧ t.rnd = s.rnd ∧ t.draws = s.draws

/-- The run flag and the halt diagnostics. -/
def SameRunState (s t : State) : Prop :=
  t.on = s.on ∧ t.haltCause = s.haltCause ∧ t.haltOpcode = s.haltOpcode ∧ t.haltAddr = s.haltAddr

/-- Nothing but the registers listed. -/
def OnlyRegs (rs : List Reg) (s t : State) : Prop :=
  SameRegsBut rs s t ∧ t.pc = s.pc ∧ t.I = s.I ∧ SameMem s t ∧ SameStack s t ∧ SameDisplay s t ∧ SameTimers s t ∧
    SameInputs s t ∧ SameRunState s t

/-- Nothing but pc. -/
def OnlyPc (s t : State) : Prop :=
  SameRegsBut [] s t ∧ t.I = s.I ∧ SameMem s t ∧ SameStack s t ∧ SameDisplay s t ∧ SameTimers s t ∧ SameInputs s t ∧
    SameRunState s t

/-- Nothing but the index register. -/
def OnlyIndex (s t : State) : Prop :=
  SameRegsBut [] s t ∧ t.pc = s.pc ∧ SameMem s t ∧ SameStack s t ∧ SameDisplay s t ∧ SameTimers s t ∧
    SameInputs s t ∧ SameRunState s t

/-- Nothing but the `n` bytes of memory from `base`. -/
def OnlyMem (base n : Nat) (s t : State) : Prop :=
  SameRegsBut [] s t ∧ t.pc = s.pc ∧ t.I = s.I ∧ SameMemBut base n s t ∧ SameStack s t ∧ SameDisplay s t ∧
    SameTimers s t ∧ SameInputs s t ∧ SameRunState s t

/-- Nothing but pc, the stack pointer and the stack entries listed. -/
def OnlyStack (ks : List (Fin 16)) (s t : State) : Prop :=
  SameRegsBut [] s t ∧ t.I = s.I ∧ SameMem s t ∧ (∀ k, k ∉ ks → t.stackAt k = s.stackAt k) ∧ SameDisplay s t ∧
    SameTimers s t ∧ SameInputs s t ∧ SameRunState s t

/-- Nothing but the timers. -/
def OnlyTimers (s t : State) : Prop :=
  SameRegsBut [] s t ∧ t.pc = s.pc ∧ t.I = s.I ∧ SameMem s t ∧ SameStack s t ∧ SameDisplay s t ∧ SameInputs s t ∧
    SameRunState s t

/-- Nothing but the framebuffer, needsRedraw and the registers listed. -/
def OnlyDisplay (rs : List Reg) (s t : State) : Prop :=
  SameRegsBut rs s t ∧ t.pc = s.pc ∧ t.I = s.I ∧ SameMem s t ∧ SameStack s t ∧ SameTimers s t ∧ SameInputs s t ∧
    SameRunState s t

/-- Nothing but the run flag and the diagnostics, which record a halt (60_exceptions.md R266). -/
def HaltsWith (cause : HaltCause) (opc addr : Word) (s t : State) : Prop :=
  (t.on = false ∧ t.haltCause = cause ∧ t.haltOpcode = opc ∧ t.haltAddr = addr) ∧
    SameRegsBut [] s t ∧ t.pc = s.pc ∧ t.I = s.I ∧ SameMem s t ∧ SameStack s t ∧ SameDisplay s t ∧ SameTimers s t ∧
    SameInputs s t

/-- Everything but the timers, pc, the count of steps and the input byte: what a step leaves alone when its instruction
has no effect, or has none because it halts (R128, R150). -/
def OnlyStepFrame (s t : State) : Prop :=
  SameRegsBut [] s t ∧ t.I = s.I ∧ SameMem s t ∧ SameStack s t ∧ SameDisplay s t ∧ (∀ k, t.keyDown k = s.keyDown k)

/-- After `n` steps that only spin the engine is RUNNING at the pc where it was: both timers have ticked `n` times,
stopping at 0, `n` steps are counted, and nothing else has changed (70_reset_and_hazards.md R315). -/
def SpunFor (n : Nat) (s t : State) : Prop :=
  t.on = true ∧ t.pc = s.pc ∧ t.cycles = s.cycles + BitVec.ofNat 64 n ∧ t.DT.toNat = s.DT.toNat - n ∧
    t.ST.toNat = s.ST.toNat - n ∧ OnlyStepFrame s t ∧ SameRunState s t

/-- The cell (r, c) lies under a set bit of the sprite DXYN draws from the state `s`: byte r - V[y] of the sprite, bit
7 - (c - V[x]) (44_display.md R220, R222). -/
def SpriteCovers (s : State) (x y : Reg) (n : Nibble) (r : Fin 32) (c : Fin 64) : Prop :=
  ((s.reg y).toNat ≤ r.val ∧ r.val < (s.reg y).toNat + n.val) ∧
    ((s.reg x).toNat ≤ c.val ∧ c.val < (s.reg x).toNat + 8) ∧
    (s.byteAt (s.I.toNat + (r.val - (s.reg y).toNat))).getLsbD (7 - (c.val - (s.reg x).toNat)) = true

/-- Both timers have ticked: each one less, stopping at 0 (R122). -/
def Ticked (s t : State) : Prop := t.DT.toNat = s.DT.toNat - 1 ∧ t.ST.toNat = s.ST.toNat - 1

end Sys2Proof.Machine
end

