-- ==== Sys2Proof/Certificates/Slice0/Obligations.lean ====
section
/-! DEFINITION. What is to be proved about the machine, from the numbered rules of spec/. A clause that rests on a decision
of the spec (its D<n>) or of the model (an entry of notes/assumptions) says so in its docstring. -/

open Sys2Proof Sys2Proof.Machine

/-! ## Encoding and decoding (30_encoding.md) -/

/-- Every well-formed instruction is what its own opcode decodes to, with every operand at every value (R94, R99,
R100). -/
def Obligations.DecodingAnEncodedInstructionGivesItBack : Prop :=
  ∀ i : Instr, i.WellFormed → decode (encode i) = some i

/-- A word that decodes to an instruction is that instruction's opcode, so no bit of it is dropped, and the instruction
is well-formed (R94, R99, R100). -/
def Obligations.EveryLegalWordIsItsInstructionsOpcode : Prop :=
  ∀ (w : Word) (i : Instr), decode w = some i → i.WellFormed ∧ encode i = w

/-- The illegal words are exactly those of R96's table. -/
def Obligations.IllegalWordsAreExactlyTheListedOnes : Prop :=
  ∀ w : Word, decode w = none ↔
    (w.toNat / 4096 = 0x5 ∧ w.toNat % 16 ≠ 0) ∨
    (w.toNat / 4096 = 0x8 ∧ w.toNat % 16 ∈ [0x8, 0x9, 0xA, 0xB, 0xC, 0xD, 0xF]) ∨
    (w.toNat / 4096 = 0x9 ∧ w.toNat % 16 ≠ 0) ∨
    (w.toNat / 4096 = 0xE ∧ w.toNat % 256 ∉ [0x9E, 0xA1]) ∨
    (w.toNat / 4096 = 0xF ∧ w.toNat % 256 ∉ [0x07, 0x0A, 0x15, 0x18, 0x1E, 0x29, 0x33, 0x55, 0x65])

/-- A row of the opcode map: `w &&& mask = pattern` selects it (R95). -/
structure Sys2Proof.OpRow where
  mask : Word
  pattern : Word
  mnemonic : String

/-- The opcode map of R95, in its order, which puts 00E0 and 00EE before 0NNN. -/
def Sys2Proof.opcodeMap : List OpRow :=
  [⟨0xFFFF, 0x00E0, "clear-screen"⟩, ⟨0xFFFF, 0x00EE, "return"⟩, ⟨0xF000, 0x0000, "legacy-call"⟩] ++
  [⟨0xF000, 0x1000, "jump"⟩, ⟨0xF000, 0x2000, "call"⟩, ⟨0xF000, 0x3000, "skip-eq-imm"⟩] ++
  [⟨0xF000, 0x4000, "skip-neq-imm"⟩, ⟨0xF00F, 0x5000, "skip-eq-reg"⟩, ⟨0xF000, 0x6000, "load-imm"⟩] ++
  [⟨0xF000, 0x7000, "add-imm"⟩, ⟨0xF00F, 0x8000, "move"⟩, ⟨0xF00F, 0x8001, "or"⟩, ⟨0xF00F, 0x8002, "and"⟩] ++
  [⟨0xF00F, 0x8003, "xor"⟩, ⟨0xF00F, 0x8004, "add"⟩, ⟨0xF00F, 0x8005, "sub"⟩, ⟨0xF00F, 0x8006, "shr"⟩] ++
  [⟨0xF00F, 0x8007, "subn"⟩, ⟨0xF00F, 0x800E, "shl"⟩, ⟨0xF00F, 0x9000, "skip-neq-reg"⟩] ++
  [⟨0xF000, 0xA000, "load-index"⟩, ⟨0xF000, 0xB000, "jump-offset"⟩, ⟨0xF000, 0xC000, "rand"⟩] ++
  [⟨0xF000, 0xD000, "draw"⟩, ⟨0xF0FF, 0xE09E, "skip-key"⟩, ⟨0xF0FF, 0xE0A1, "skip-notkey"⟩] ++
  [⟨0xF0FF, 0xF007, "get-delay"⟩, ⟨0xF0FF, 0xF00A, "wait-key"⟩, ⟨0xF0FF, 0xF015, "set-delay"⟩] ++
  [⟨0xF0FF, 0xF018, "set-sound"⟩, ⟨0xF0FF, 0xF01E, "add-index"⟩, ⟨0xF0FF, 0xF029, "font-addr"⟩] ++
  [⟨0xF0FF, 0xF033, "bcd"⟩, ⟨0xF0FF, 0xF055, "store-regs"⟩, ⟨0xF0FF, 0xF065, "load-regs"⟩]

/-- The decoder gives a word the instruction of the first row of R95's map that the word selects, and none where no row
is selected. -/
def Obligations.DecodingFollowsTheOpcodeMap : Prop :=
  ∀ w : Word, (decode w).map Instr.mnemonic =
    (opcodeMap.find? (fun row => w &&& row.mask == row.pattern)).map OpRow.mnemonic

/-- The seven encoding examples of R101, and the byte order of the first. -/
def Obligations.ExampleWordsDecodeAsWritten : Prop :=
  decode 0x1DED = some (.jump 0xDED) ∧ decodeBytes [0x1D, 0xED] = .instr (.jump 0xDED) [] ∧
  decode 0x2DED = some (.call 0xDED) ∧ decode 0x3EAD = some (.skipEqImm 0xE 0xAD) ∧
  decode 0x8104 = some (.add 1 0) ∧ decode 0xD012 = some (.draw 0 1 2) ∧
  decode 0xF255 = some (.storeRegs 2) ∧ decode 0xEA9E = some (.skipKey 0xA)

/-! ## The step (40_step_cycle.md) -/

/-- A STOPPED engine's step changes nothing and its tone is 0 (R121; the spec's decision D5). -/
def Obligations.StoppedEngineIgnoresAStep : Prop :=
  ∀ s : State, s.on = false → step s = .next s ∧ tone s = false

/-- A RUNNING engine whose bytes at pc decode to an instruction runs it: after the input byte, the tick and pc + 2 comes
`exec`, and a step that has not halted is counted (R129). That a halting step is not counted is the spec's decision D20,
entry 8; the input byte is taken into the model's own fields `rnd` and `draws`, entry 1. -/
def Obligations.StepRunsTheDecodedInstruction : Prop :=
  ∀ (s : State) (w : Word) (i : Instr), Fetches s w → decode w = some i →
    ∃ t, exec i s.fetched = .next t ∧ step s = .next (if t.on then { t with cycles := t.cycles + 1 } else t)

/-- An illegal word halts the engine with DecodeError, its word and its address; only the tick and the advanced pc are
left of the step (R262). -/
def Obligations.IllegalWordHaltsWithDecodeError : Prop :=
  ∀ (s : State) (w : Word), Fetches s w → decode w = none →
    ∃ t, step s = .next t ∧ t.on = false ∧ t.haltCause = .decodeError ∧ t.haltCause.code = 3 ∧ t.haltOpcode = w ∧
      t.haltAddr = s.pc ∧ t.pc = s.pc + 2 ∧ Ticked s t ∧ t.cycles = s.cycles ∧ OnlyStepFrame s t

/-- A pc with pc + 2 > 0xFFF halts the engine with PcBounds; nothing is fetched and pc stays (R69, R123, R261). The bound
is the spec's decision D3, entry 4. -/
def Obligations.FetchPastTheBoundHaltsWithPcBounds : Prop :=
  ∀ s : State, s.on = true → 0xFFF < s.pc.toNat + 2 →
    ∃ t, step s = .next t ∧ t.on = false ∧ t.haltCause = .pcBounds ∧ t.haltCause.code = 2 ∧ t.haltOpcode = 0 ∧
      t.haltAddr = s.pc ∧ t.pc = s.pc ∧ Ticked s t ∧ t.cycles = s.cycles ∧ OnlyStepFrame s t

/-- In every step of a RUNNING engine, a halting one too, the tone is ST > 0 before the tick, and each timer is one less,
stopping at 0, unless the step's instruction is the one that sets it (R122; one tick a step is the spec's decision D2). -/
def Obligations.EveryStepTicksBothTimers : Prop :=
  ∀ s t : State, s.on = true → step s = .next t →
    (tone s = true ↔ 0 < s.ST.toNat) ∧
    (t.DT.toNat = s.DT.toNat - 1 ∨ ∃ x, Runs s (.setDelay x) ∧ t.DT = s.reg x) ∧
    (t.ST.toNat = s.ST.toNat - 1 ∨ ∃ x, Runs s (.setSound x) ∧ t.ST = s.reg x)

/-- A step that completes is counted, a step that halts is not (R127; the spec's decision D20, width entry 8). -/
def Obligations.OnlyCompletedStepsAreCounted : Prop :=
  ∀ s t : State, s.on = true → step s = .next t → t.cycles = if t.on then s.cycles + 1 else s.cycles

/-- No instruction and no step faults or is refused, from any state: the bound checks come before every access (R68, R69,
R126). -/
def Obligations.EveryStepAnswersANextState : Prop :=
  (∀ (i : Instr) (s : State), ∃ t, exec i s = .next t) ∧ ∀ s : State, ∃ t, step s = .next t

/-- Every step keeps the invariant of R38, from every state that meets it. -/
def Obligations.EveryStepKeepsTheInvariant : Prop :=
  ∀ s t : State, s.Inv → step s = .next t → t.Inv

/-- The state after `init` meets the invariant of R38. -/
def Obligations.ResetMeetsTheInvariant : Prop := State.reset.Inv

/-- A step that halts leaves only the tick, the advanced pc (but for PcBounds) and the diagnostics, names the address of
the offending opcode, and has one of the causes of R269, each with its reason (R128, R269, R270; decisions D3, D4, D8 of
the spec). -/
def Obligations.AHaltingStepLeavesOnlyItsTrace : Prop :=
  ∀ s t : State, s.on = true → step s = .next t → t.on = false →
    Ticked s t ∧ t.cycles = s.cycles ∧ OnlyStepFrame s t ∧ t.haltAddr = s.pc ∧
    ((t.haltCause = .pcBounds ∧ 0xFFD < s.pc.toNat ∧ t.pc = s.pc ∧ t.haltOpcode = 0) ∨
     (Fetches s t.haltOpcode ∧ t.pc = s.pc + 2 ∧
      ((t.haltCause = .decodeError ∧ decode t.haltOpcode = none) ∨
       (t.haltCause = .stackUnderflow ∧ t.haltOpcode = 0x00EE ∧ s.sp = 0) ∨
       (t.haltCause = .stackOverflow ∧ (∃ nnn, decode t.haltOpcode = some (.call nnn)) ∧ s.sp = 16) ∨
       (t.haltCause = .indexBounds ∧
         ((∃ x y n, decode t.haltOpcode = some (.draw x y n) ∧ 0 < n.val ∧ 0xFFF < s.I.toNat + (n.val - 1)) ∨
          (∃ x, decode t.haltOpcode = some (.bcd x) ∧ 0xFFF < s.I.toNat + 2) ∨
          (∃ x, decode t.haltOpcode = some (.storeRegs x) ∧ 0xFFF < s.I.toNat + x.val) ∨
          (∃ x, decode t.haltOpcode = some (.loadRegs x) ∧ 0xFFF < s.I.toNat + x.val))))))

/-- Which step writes what (the column "written by" of R20): the keypad by none, needsRedraw is never cleared, and a
change of memory, the stack, sp, the display or I means that the step ran an instruction listed for it. -/
def Obligations.EachStoreIsWrittenOnlyByItsInstructions : Prop :=
  ∀ s t : State, step s = .next t →
    (∀ k, t.keyDown k = s.keyDown k) ∧
    (s.needsRedraw = true → t.needsRedraw = true) ∧
    (SameMem s t ∨ ∃ x, Runs s (.bcd x) ∨ Runs s (.storeRegs x)) ∧
    ((∀ k, t.stackAt k = s.stackAt k) ∨ ∃ nnn, Runs s (.call nnn)) ∧
    (t.sp = s.sp ∨ Runs s .ret ∨ ∃ nnn, Runs s (.call nnn)) ∧
    (SameDisplay s t ∨ Runs s .clearScreen ∨ ∃ x y n, Runs s (.draw x y n)) ∧
    (t.I = s.I ∨ (∃ nnn, Runs s (.loadIndex nnn)) ∨ ∃ x, Runs s (.addIndex x) ∨ Runs s (.fontAddr x))

/-- VF changes only in a step whose instruction writes it as a flag (8XY4, 8XY5, 8XY6, 8XY7, 8XYE, DXYN) or names it as
its ordinary destination (R23). -/
def Obligations.OnlyFlagWritersTouchVFOnTheSide : Prop :=
  ∀ s t : State, step s = .next t → t.reg VF = s.reg VF ∨
    (∃ x y, Runs s (.add x y) ∨ Runs s (.sub x y) ∨ Runs s (.shr x y) ∨ Runs s (.subn x y) ∨ Runs s (.shl x y) ∨
      ∃ n, Runs s (.draw x y n)) ∨
    (∃ nn, Runs s (.loadImm VF nn) ∨ Runs s (.addImm VF nn) ∨ Runs s (.rand VF nn)) ∨
    (∃ y, Runs s (.move VF y) ∨ Runs s (.or VF y) ∨ Runs s (.and VF y) ∨ Runs s (.xor VF y)) ∨
    Runs s (.getDelay VF) ∨ Runs s (.waitKey VF) ∨ Runs s (.loadRegs VF)

/-- A step that does not execute CXNN ignores its input byte (R137; the input byte is the model's field `rnd`, entry 1). -/
def Obligations.OnlyRandReadsTheInputByte : Prop :=
  ∀ (a b : Byte) (s t : State), s.on = true → (¬ ∃ x nn, Runs s (.rand x nn)) → coreStep a s = .next t →
    coreStep b s = .next { t with rnd := b }

/-- Over consecutive steps of a RUNNING engine that do not set a timer, the timer falls by one a step to 0, and the tone
sounds as long as ST lasts (R248; one tick a step is the spec's decision D2). -/
def Obligations.TimersCountStepsDownToZero : Prop :=
  ∀ (run : Nat → State) (n : Nat), (∀ k < n, (run k).on = true ∧ step (run k) = .next (run (k + 1))) →
    ((∀ k < n, ¬ ∃ x, Runs (run k) (.setDelay x)) → (run n).DT.toNat = (run 0).DT.toNat - n) ∧
    ((∀ k < n, ¬ ∃ x, Runs (run k) (.setSound x)) →
      (run n).ST.toNat = (run 0).ST.toNat - n ∧ ∀ k < n, (tone (run k) = true ↔ k < (run 0).ST.toNat))

/-! ## Control transfer (41_flow.md) -/

/-- 0NNN has no effect, and its step leaves only the tick, pc + 2 and the count (R150). -/
def Obligations.LegacyCallDoesNothing : Prop :=
  ∀ (nnn : Addr12) (s : State),
    (nnn ≠ 0x0E0 → nnn ≠ 0x0EE → EncodedAs nnn.toNat (.legacyCall nnn)) ∧
    exec (.legacyCall nnn) s = .next s ∧
    (Runs s (.legacyCall nnn) → ∃ t, step s = .next t ∧ t.pc = s.pc + 2 ∧ t.cycles = s.cycles + 1 ∧ Ticked s t ∧
      OnlyStepFrame s t ∧ SameRunState s t)

/-- 00EE pops pc from the stack, all 16 bits, without clearing the entry; under the invariant that is an address of at
most 0xFFF; with nothing on the stack it halts with StackUnderflow and changes nothing else (R151, R263, R266, R270). What
the halt records and that the check comes first are the spec's decisions D4, D7 and D30, entry 9. -/
def Obligations.ReturnPopsThePc : Prop :=
  EncodedAs 0x00EE .ret ∧
  (∀ (s : State) (k : Fin 16), s.sp.val = k.val + 1 →
    ∃ t, exec .ret s = .next t ∧ t.pc = s.stackAt k ∧ t.sp.val = k.val ∧ OnlyStack [] s t ∧
      (s.Inv → t.pc.toNat ≤ 0xFFF)) ∧
  ∀ s : State, s.sp = 0 → ∃ t, exec .ret s = .next t ∧ HaltsWith .stackUnderflow 0x00EE (s.pc - 2) s t

/-- 1NNN sets pc to nnn, whatever it was (R152). -/
def Obligations.JumpSetsThePc : Prop :=
  ∀ (nnn : Addr12) (s : State), EncodedAs (0x1000 + nnn.toNat) (.jump nnn) ∧
    ∃ t, exec (.jump nnn) s = .next t ∧ t.pc.toNat = nnn.toNat ∧ OnlyPc s t

/-- A jump to its own address, and FX0A while no key is pressed, never end: every number of steps is a safe run, after
which the engine is RUNNING at the same pc, the timers have ticked and every step is counted (R152, R244, R315; the count
of steps is the spec's decision D20, entry 8, one tick a step D2). -/
def Obligations.AJumpToItselfRunsForever : Prop :=
  ∀ (n : Nat) (s : State),
    (∀ nnn : Addr12, Runs s (.jump nnn) → nnn.toNat = s.pc.toNat →
      SafeRun n s ∧ ∃ t, stepTimes n s = .next t ∧ SpunFor n s t) ∧
    (∀ x : Reg, Runs s (.waitKey x) → (∀ k, s.keyDown k = false) →
      SafeRun n s ∧ ∃ t, stepTimes n s = .next t ∧ SpunFor n s t)

/-- 2NNN pushes pc, all 16 bits, and jumps; with 16 entries on the stack it halts with StackOverflow and changes nothing
else (R153, R264, R266, R270). What the halt records and that the check comes first are the spec's decisions D4, D7 and
D30, entry 9. -/
def Obligations.CallPushesThePcAndJumps : Prop :=
  ∀ (nnn : Addr12) (s : State), EncodedAs (0x2000 + nnn.toNat) (.call nnn) ∧
    (∀ k : Fin 16, s.sp.val = k.val → ∃ t, exec (.call nnn) s = .next t ∧ t.stackAt k = s.pc ∧ t.sp.val = k.val + 1 ∧
      t.pc.toNat = nnn.toNat ∧ OnlyStack [k] s t) ∧
    (s.sp = 16 → ∃ t, exec (.call nnn) s = .next t ∧
      HaltsWith .stackOverflow (BitVec.ofNat 16 (0x2000 + nnn.toNat)) (s.pc - 2) s t)

/-- A call and then a return restore pc and the stack pointer, and leave everything but the entry the call wrote (R159). -/
def Obligations.ReturnUndoesACall : Prop :=
  ∀ (nnn : Addr12) (s : State) (k : Fin 16), s.sp.val = k.val →
    ∃ t u, exec (.call nnn) s = .next t ∧ exec .ret t = .next u ∧ u.pc = s.pc ∧ u.sp = s.sp ∧ OnlyStack [k] s u

/-- BNNN sets pc to nnn + V[0], with no mask and no wrap (R154, an inference the spec marks as derived). -/
def Obligations.JumpOffsetAddsV0 : Prop :=
  ∀ (nnn : Addr12) (s : State), ∃ t, exec (.jumpOffset nnn) s = .next t ∧
    t.pc.toNat = nnn.toNat + (s.reg 0).toNat ∧ OnlyPc s t

/-- 3XNN and 4XNN add 2 to pc when V[x] is, or is not, nn (R155, R156). -/
def Obligations.ImmediateSkipsCompareWithTheByte : Prop :=
  ∀ (x : Reg) (nn : Byte) (s : State),
    EncodedAs (0x3000 + x.val * 256 + nn.toNat) (.skipEqImm x nn) ∧
    EncodedAs (0x4000 + x.val * 256 + nn.toNat) (.skipNeqImm x nn) ∧
    (∃ t, exec (.skipEqImm x nn) s = .next t ∧ t.pc = (if s.reg x = nn then s.pc + 2 else s.pc) ∧ OnlyPc s t) ∧
    (∃ t, exec (.skipNeqImm x nn) s = .next t ∧ t.pc = (if s.reg x = nn then s.pc else s.pc + 2) ∧ OnlyPc s t)

/-- 5XY0 and 9XY0 add 2 to pc when V[x] and V[y] are, or are not, equal (R157, R158). -/
def Obligations.RegisterSkipsCompareTheRegisters : Prop :=
  ∀ (x y : Reg) (s : State),
    EncodedAs (0x5000 + x.val * 256 + y.val * 16) (.skipEqReg x y) ∧
    EncodedAs (0x9000 + x.val * 256 + y.val * 16) (.skipNeqReg x y) ∧
    (∀ n : Nat, 0 < n → n < 16 → decode (BitVec.ofNat 16 (0x5000 + x.val * 256 + y.val * 16 + n)) = none ∧
      decode (BitVec.ofNat 16 (0x9000 + x.val * 256 + y.val * 16 + n)) = none) ∧
    (∃ t, exec (.skipEqReg x y) s = .next t ∧ t.pc = (if s.reg x = s.reg y then s.pc + 2 else s.pc) ∧ OnlyPc s t) ∧
    (∃ t, exec (.skipNeqReg x y) s = .next t ∧ t.pc = (if s.reg x = s.reg y then s.pc else s.pc + 2) ∧ OnlyPc s t)

/-! ## Registers, arithmetic, logic, random (42_alu.md) -/

/-- 6XNN writes nn to V[x] and nothing else (R171). -/
def Obligations.LoadImmWritesItsByte : Prop :=
  ∀ (x : Reg) (nn : Byte) (s : State), EncodedAs (0x6000 + x.val * 256 + nn.toNat) (.loadImm x nn) ∧
    ∃ t, exec (.loadImm x nn) s = .next t ∧ t.reg x = nn ∧ OnlyRegs [x] s t

/-- 7XNN adds nn to V[x] modulo 256 and writes no flag (R172). -/
def Obligations.AddImmWrapsAndWritesNoFlag : Prop :=
  ∀ (x : Reg) (nn : Byte) (s : State), EncodedAs (0x7000 + x.val * 256 + nn.toNat) (.addImm x nn) ∧
    ∃ t, exec (.addImm x nn) s = .next t ∧ (t.reg x).toNat = ((s.reg x).toNat + nn.toNat) % 256 ∧ OnlyRegs [x] s t

/-- 8XY0 copies V[y] to V[x] (R173). -/
def Obligations.MoveCopiesARegister : Prop :=
  ∀ (x y : Reg) (s : State), EncodedAs (0x8000 + x.val * 256 + y.val * 16) (.move x y) ∧
    ∃ t, exec (.move x y) s = .next t ∧ t.reg x = s.reg y ∧ OnlyRegs [x] s t

/-- 8XY1, 8XY2, 8XY3 combine V[x] and V[y] bit by bit and write no flag (R174, R175, R176). -/
def Obligations.LogicalOperationsWriteNoFlag : Prop :=
  ∀ (x y : Reg) (s : State),
    EncodedAs (0x8001 + x.val * 256 + y.val * 16) (.or x y) ∧
    EncodedAs (0x8002 + x.val * 256 + y.val * 16) (.and x y) ∧
    EncodedAs (0x8003 + x.val * 256 + y.val * 16) (.xor x y) ∧
    (∃ t, exec (.or x y) s = .next t ∧
      (∀ k < 8, (t.reg x).getLsbD k = ((s.reg x).getLsbD k || (s.reg y).getLsbD k)) ∧ OnlyRegs [x] s t) ∧
    (∃ t, exec (.and x y) s = .next t ∧
      (∀ k < 8, (t.reg x).getLsbD k = ((s.reg x).getLsbD k && (s.reg y).getLsbD k)) ∧ OnlyRegs [x] s t) ∧
    (∃ t, exec (.xor x y) s = .next t ∧
      (∀ k < 8, (t.reg x).getLsbD k = ((s.reg x).getLsbD k ^^ (s.reg y).getLsbD k)) ∧ OnlyRegs [x] s t)

/-- 8XY4: V[x] is the sum modulo 256, VF the carry; operands are the old values; where x = F the result stays in VF (R170,
R177; the write order is the spec's decision D9). -/
def Obligations.AddWritesSumAndCarry : Prop :=
  ∀ (x y : Reg) (s : State), ∃ t, exec (.add x y) s = .next t ∧
    (t.reg x).toNat = ((s.reg x).toNat + (s.reg y).toNat) % 256 ∧
    (x ≠ VF → t.reg VF = if 255 < (s.reg x).toNat + (s.reg y).toNat then 1 else 0) ∧ OnlyRegs [x, VF] s t

/-- 8XY5 and 8XY7: V[x] is the difference modulo 256, in the one order or the other, VF is 1 for no borrow; operands are
the old values; where x = F the result stays in VF (R170, R178, R180; the write order is the spec's decision D9). -/
def Obligations.SubtractionsWriteDifferenceAndNoBorrow : Prop :=
  ∀ (x y : Reg) (s : State),
    (∃ t, exec (.sub x y) s = .next t ∧
      ((t.reg x).toNat : Int) = ((s.reg x).toNat - (s.reg y).toNat : Int) % 256 ∧
      (x ≠ VF → t.reg VF = if (s.reg y).toNat ≤ (s.reg x).toNat then 1 else 0) ∧ OnlyRegs [x, VF] s t) ∧
    (∃ t, exec (.subn x y) s = .next t ∧
      ((t.reg x).toNat : Int) = ((s.reg y).toNat - (s.reg x).toNat : Int) % 256 ∧
      (x ≠ VF → t.reg VF = if (s.reg x).toNat ≤ (s.reg y).toNat then 1 else 0) ∧ OnlyRegs [x, VF] s t)

/-- 8XY6 and 8XYE: V[x] moves by one bit, VF is the bit that left, V[y] is ignored; where x = F the result stays in VF
(R170, R179, R181; the write order is the spec's decision D9). -/
def Obligations.ShiftsMoveVxByOneBit : Prop :=
  ∀ (x y : Reg) (s : State),
    (∃ t, exec (.shr x y) s = .next t ∧ (t.reg x).toNat = (s.reg x).toNat / 2 ∧
      (x ≠ VF → (t.reg VF).toNat = (s.reg x).toNat % 2) ∧ OnlyRegs [x, VF] s t) ∧
    (∃ t, exec (.shl x y) s = .next t ∧ (t.reg x).toNat = (s.reg x).toNat * 2 % 256 ∧
      (x ≠ VF → t.reg VF = if (s.reg x).getLsbD 7 then 1 else 0) ∧ OnlyRegs [x, VF] s t)

/-- CXNN writes the step's input byte masked by nn, so no bit that nn lacks; the byte of a step is the free value of that
step (R137, R182; the field `rnd` and the free value are entry 1). -/
def Obligations.RandMasksTheInputByte : Prop :=
  ∀ (x : Reg) (nn : Byte) (s : State),
    (∃ t, exec (.rand x nn) s = .next t ∧ t.reg x = s.rnd &&& nn ∧
      (∀ k < 8, (t.reg x).getLsbD k = true → nn.getLsbD k = true) ∧ OnlyRegs [x] s t) ∧
    (Runs s (.rand x nn) → ∃ t, step s = .next t ∧ t.reg x = Config.rndInput s.draws &&& nn)

/-! ## Index register and memory (43_index_memory.md) -/

/-- ANNN loads I with nnn (R200). -/
def Obligations.LoadIndexWritesTheAddress : Prop :=
  ∀ (nnn : Addr12) (s : State), EncodedAs (0xA000 + nnn.toNat) (.loadIndex nnn) ∧
    ∃ t, exec (.loadIndex nnn) s = .next t ∧ t.I.toNat = nnn.toNat ∧ OnlyIndex s t

/-- FX1E adds V[x] to I modulo 65536, without a flag or a bound check (R201; the wrap is the spec's decision D15). -/
def Obligations.AddIndexWrapsAt16Bits : Prop :=
  ∀ (x : Reg) (s : State), ∃ t, exec (.addIndex x) s = .next t ∧
    t.I.toNat = (s.I.toNat + (s.reg x).toNat) % 65536 ∧ OnlyIndex s t

/-- FX29 sets I to five times V[x], all eight bits of it; with the font of `init` in memory that is the address of glyph
V[x] - 2 for 2 to 17, and of zero bytes for 0 and 1 (R202, its last part an inference the spec marks as derived; the
font's place is decision D18, its bytes entry 5). -/
def Obligations.FontAddrMultipliesByFive : Prop :=
  ∀ (x : Reg) (s : State), ∃ t, exec (.fontAddr x) s = .next t ∧ t.I.toNat = (s.reg x).toNat * 5 ∧ OnlyIndex s t ∧
    (SameMem State.reset s → ∀ k < 5,
      ((s.reg x).toNat < 2 → t.byteAt (t.I.toNat + k) = 0) ∧
      (2 ≤ (s.reg x).toNat → (s.reg x).toNat ≤ 17 →
        t.byteAt (t.I.toNat + k) = Config.fontRom.getD (((s.reg x).toNat - 2) * 5 + k) 0))

/-- FX33 stores the three decimal digits of V[x] at I, I + 1, I + 2 when they lie in memory (R203). -/
def Obligations.BcdStoresThreeDigits : Prop :=
  ∀ (x : Reg) (s : State), s.I.toNat + 2 ≤ 0xFFF →
    ∃ t, exec (.bcd x) s = .next t ∧ (t.byteAt s.I.toNat).toNat = (s.reg x).toNat / 100 ∧
      (t.byteAt (s.I.toNat + 1)).toNat = (s.reg x).toNat / 10 % 10 ∧
      (t.byteAt (s.I.toNat + 2)).toNat = (s.reg x).toNat % 10 ∧ OnlyMem s.I.toNat 3 s t

/-- FX55 stores V[0] to V[x] from I upward when they fit in memory, and leaves I (R204). -/
def Obligations.StoreRegsWritesMemoryFromI : Prop :=
  ∀ (x : Reg) (s : State), s.I.toNat + x.val ≤ 0xFFF →
    ∃ t, exec (.storeRegs x) s = .next t ∧ (∀ r : Reg, r ≤ x → t.byteAt (s.I.toNat + r.val) = s.reg r) ∧
      OnlyMem s.I.toNat (x.val + 1) s t

/-- FX65 loads V[0] to V[x] from I upward when they lie in memory, and leaves I, memory and the registers above x
(R205). -/
def Obligations.LoadRegsReadsMemoryFromI : Prop :=
  ∀ (x : Reg) (s : State), s.I.toNat + x.val ≤ 0xFFF →
    ∃ t, exec (.loadRegs x) s = .next t ∧ (∀ r : Reg, r ≤ x → t.reg r = s.byteAt (s.I.toNat + r.val)) ∧
      (∀ r : Reg, x < r → t.reg r = s.reg r) ∧ OnlyRegs ((List.finRange 16).filter (fun r => r ≤ x)) s t

/-- Storing V[0] to V[x] and loading them back from the same index, whatever the registers hold by then, gives the
original values (R204, R205). -/
def Obligations.LoadRegsUndoesStoreRegs : Prop :=
  ∀ (x : Reg) (s t u : State), s.I.toNat + x.val ≤ 0xFFF → exec (.storeRegs x) s = .next t → SameMem t u → u.I = s.I →
    ∃ v, exec (.loadRegs x) u = .next v ∧ ∀ r : Reg, r ≤ x → v.reg r = s.reg r

/-- DXYN, FX33, FX55 and FX65 halt with IndexBounds when their last byte would lie above 0xFFF, and change nothing else:
no partial effect (R68, R265; the halt is the spec's decision D8). -/
def Obligations.IndexPastMemoryHaltsWithNoPartialEffect : Prop :=
  ∀ (x y : Reg) (n : Nibble) (s : State),
    (0 < n.val → 0xFFF < s.I.toNat + (n.val - 1) → ∃ t, exec (.draw x y n) s = .next t ∧
      HaltsWith .indexBounds (BitVec.ofNat 16 (0xD000 + x.val * 256 + y.val * 16 + n.val)) (s.pc - 2) s t) ∧
    (0xFFF < s.I.toNat + 2 → ∃ t, exec (.bcd x) s = .next t ∧
      HaltsWith .indexBounds (BitVec.ofNat 16 (0xF033 + x.val * 256)) (s.pc - 2) s t) ∧
    (0xFFF < s.I.toNat + x.val → ∃ t, exec (.storeRegs x) s = .next t ∧
      HaltsWith .indexBounds (BitVec.ofNat 16 (0xF055 + x.val * 256)) (s.pc - 2) s t) ∧
    (0xFFF < s.I.toNat + x.val → ∃ t, exec (.loadRegs x) s = .next t ∧
      HaltsWith .indexBounds (BitVec.ofNat 16 (0xF065 + x.val * 256)) (s.pc - 2) s t)

/-- Whatever FX55 or FX33 stores into one or both of the bytes fetched next is what the next fetch reads and the next step
runs, in their execution at the pc already advanced and over whole steps (R73, the spec's decision D27). -/
def Obligations.TheNextFetchSeesAStore : Prop :=
  ∀ (x : Reg) (s : State),
    let regs := ((List.finRange 16).take (x.val + 1)).map s.reg
    let digits := [(s.reg x).toNat / 100, (s.reg x).toNat / 10 % 10, (s.reg x).toNat % 10].map (BitVec.ofNat 8)
    (s.I.toNat + x.val ≤ 0xFFF → s.on = true → s.pc.toNat ≤ 0xFFD →
      ∃ t, exec (.storeRegs x) s = .next t ∧ NextFetch t (wordAfterStore s s.I.toNat regs s.pc.toNat)) ∧
    (s.I.toNat + x.val ≤ 0xFFF → Runs s (.storeRegs x) → s.pc.toNat + 2 ≤ 0xFFD →
      ∃ t, step s = .next t ∧ NextFetch t (wordAfterStore s s.I.toNat regs (s.pc.toNat + 2))) ∧
    (s.I.toNat + 2 ≤ 0xFFF → s.on = true → s.pc.toNat ≤ 0xFFD →
      ∃ t, exec (.bcd x) s = .next t ∧ NextFetch t (wordAfterStore s s.I.toNat digits s.pc.toNat)) ∧
    (s.I.toNat + 2 ≤ 0xFFF → Runs s (.bcd x) → s.pc.toNat + 2 ≤ 0xFFD →
      ∃ t, step s = .next t ∧ NextFetch t (wordAfterStore s s.I.toNat digits (s.pc.toNat + 2)))

/-! ## Display (44_display.md) -/

/-- 00E0 clears every cell and sets needsRedraw (R221). -/
def Obligations.ClearScreenClearsEveryCell : Prop :=
  EncodedAs 0x00E0 .clearScreen ∧
  ∀ s : State, ∃ t, exec .clearScreen s = .next t ∧ (∀ r c, t.pixel r c = false) ∧ t.needsRedraw = true ∧
    OnlyDisplay [] s t

/-- DXYN, cell by cell: exactly the cells under a set sprite bit are flipped, VF is 1 exactly when one of them was 1, and
needsRedraw is set, for n = 0 too (R222; clipping, orientation and n = 0 are the spec's decisions D10 and D11, entry
6). -/
def Obligations.DrawFlipsExactlyTheSpritesCells : Prop :=
  ∀ (x y : Reg) (n : Nibble) (s : State), (n.val = 0 ∨ s.I.toNat + (n.val - 1) ≤ 0xFFF) →
    ∃ t, exec (.draw x y n) s = .next t ∧
      (∀ r c, SpriteCovers s x y n r c → t.pixel r c = !s.pixel r c) ∧
      (∀ r c, ¬ SpriteCovers s x y n r c → t.pixel r c = s.pixel r c) ∧
      ((∃ r c, SpriteCovers s x y n r c ∧ s.pixel r c = true) → t.reg VF = 1) ∧
      ((¬ ∃ r c, SpriteCovers s x y n r c ∧ s.pixel r c = true) → t.reg VF = 0) ∧
      t.needsRedraw = true ∧ OnlyDisplay [VF] s t

/-- Drawing twice at one position restores the framebuffer, and the second draw collides exactly when the first one lit
a cell (R222; a coordinate in VF moves, so x and y are not F here; decision D10, entry 6). -/
def Obligations.DrawingTwiceRestoresTheScreen : Prop :=
  ∀ (x y : Reg) (n : Nibble) (s t u : State), x ≠ VF → y ≠ VF → (n.val = 0 ∨ s.I.toNat + (n.val - 1) ≤ 0xFFF) →
    exec (.draw x y n) s = .next t → exec (.draw x y n) t = .next u →
    (∀ r c, u.pixel r c = s.pixel r c) ∧
    (u.reg VF = 1 ↔ ∃ r c, s.pixel r c = false ∧ t.pixel r c = true)

/-! ## Keypad and timers (45_keypad_timers.md) -/

/-- EX9E and EXA1 add 2 to pc when the key V[x][3:0] is pressed, or is not (R240, R241, R242; the low nibble is the
spec's decision D12). -/
def Obligations.KeySkipsTestTheLowNibblesKey : Prop :=
  ∀ (x : Reg) (k : Fin 16) (s : State), k.val = (s.reg x).toNat % 16 →
    (∃ t, exec (.skipKey x) s = .next t ∧ t.pc = (if s.keyDown k then s.pc + 2 else s.pc) ∧ OnlyPc s t) ∧
    (∃ t, exec (.skipNotkey x) s = .next t ∧ t.pc = (if s.keyDown k then s.pc else s.pc + 2) ∧ OnlyPc s t)

/-- FX0A with a key pressed writes the least pressed key's number to V[x]; with none it takes pc back by 2, and its whole
step leaves pc where it was, RUNNING, ticked and counted (R244; the least key is the spec's decision D13, entry 7). -/
def Obligations.WaitKeyTakesTheLeastKeyOrRepeats : Prop :=
  ∀ (x : Reg) (s : State),
    (∀ k : Fin 16, s.keyDown k = true → (∀ j : Fin 16, j < k → s.keyDown j = false) →
      ∃ t, exec (.waitKey x) s = .next t ∧ (t.reg x).toNat = k.val ∧ OnlyRegs [x] s t) ∧
    ((∀ k, s.keyDown k = false) → ∃ t, exec (.waitKey x) s = .next t ∧ t.pc = s.pc - 2 ∧ OnlyPc s t) ∧
    ((∀ k, s.keyDown k = false) → Runs s (.waitKey x) → ∃ t, step s = .next t ∧ t.pc = s.pc ∧ Ticked s t ∧
      t.cycles = s.cycles + 1 ∧ OnlyStepFrame s t ∧ SameRunState s t)

/-- FX07 reads DT, which in a whole step is DT after that step's tick (R245). -/
def Obligations.GetDelayReadsTheTickedTimer : Prop :=
  ∀ (x : Reg) (s : State), EncodedAs (0xF007 + x.val * 256) (.getDelay x) ∧
    (∃ t, exec (.getDelay x) s = .next t ∧ t.reg x = s.DT ∧ OnlyRegs [x] s t) ∧
    (Runs s (.getDelay x) → ∃ t, step s = .next t ∧ (t.reg x).toNat = s.DT.toNat - 1)

/-- FX15 writes V[x] to DT, after the step's tick (R246). -/
def Obligations.SetDelayWritesTheTimer : Prop :=
  ∀ (x : Reg) (s : State), EncodedAs (0xF015 + x.val * 256) (.setDelay x) ∧
    (∃ t, exec (.setDelay x) s = .next t ∧ t.DT = s.reg x ∧ t.ST = s.ST ∧ OnlyTimers s t) ∧
    (Runs s (.setDelay x) → ∃ t, step s = .next t ∧ t.DT = s.reg x)

/-- FX18 writes V[x] to ST, after the step's tick; the tone of its own step is the old ST's (R247). -/
def Obligations.SetSoundWritesTheTimer : Prop :=
  ∀ (x : Reg) (s : State), EncodedAs (0xF018 + x.val * 256) (.setSound x) ∧
    (∃ t, exec (.setSound x) s = .next t ∧ t.ST = s.reg x ∧ t.DT = s.DT ∧ OnlyTimers s t) ∧
    (Runs s (.setSound x) → (tone s = true ↔ 0 < s.ST.toNat) ∧
      ∃ t, step s = .next t ∧ t.ST = s.reg x ∧ (t.on = true → (tone t = true ↔ 0 < (s.reg x).toNat)))

/-! ## Reset and the host's commands (10_state.md R36, 40_step_cycle.md R130 to R136) -/

/-- Every field after `init` (R36, R37). The diagnostics are the spec's decision D29, glyphs 1 to F decision D18 and entry
5; the model's own fields are not named. -/
def Obligations.ResetHoldsTheValuesOfInit : Prop :=
  (∀ a < 0x00A, State.reset.byteAt a = 0) ∧
  (∀ k < 80, State.reset.byteAt (0x00A + k) = Config.fontRom.getD k 0) ∧
  [0, 1, 2, 3, 4].map (fun k => State.reset.byteAt (0x00A + k)) = [0xF0, 0x90, 0x90, 0x90, 0xF0] ∧
  (∀ a, 0x05A ≤ a → a ≤ 0xFFF → State.reset.byteAt a = 0) ∧
  (∀ r, State.reset.reg r = 0) ∧ State.reset.pc = 0x200 ∧ (∀ k, State.reset.stackAt k = 0) ∧ State.reset.sp = 0 ∧
  State.reset.I = 0 ∧ State.reset.DT = 0 ∧ State.reset.ST = 0 ∧ (∀ r c, State.reset.pixel r c = false) ∧
  (∀ k, State.reset.keyDown k = false) ∧ State.reset.needsRedraw = false ∧ State.reset.cycles = 0 ∧
  State.reset.on = false ∧ State.reset.haltCause = .none ∧ State.reset.haltCause.code = 0 ∧
  State.reset.haltOpcode = 0 ∧ State.reset.haltAddr = 0

/-- `init` gives the reset state from any state (R131, decision D29), a RUNNING one too, whose run flag goes off first, entry
19; the model's own counter of input bytes goes on, entry 15. -/
def Obligations.InitGivesTheResetState : Prop :=
  ∀ s : State, hostAct .init s = .next { State.reset with draws := s.draws }

/-- `load` copies an image of at most 3584 bytes to 0x200 before a run, and changes nothing else; any other load changes
nothing (R75; when it is admitted is the spec's decision D19). That a refused load is a command that answers the same
state, and not no command at all, is the model's choice, entry 17. -/
def Obligations.LoadCopiesTheImageBeforeARun : Prop :=
  ∀ (image : List Byte) (s : State),
    (s.on = false → s.haltCause = .none → image.length ≤ 3584 →
      ∃ t, hostAct (.load image) s = .next t ∧
        (∀ (k : Nat) (h : k < image.length), t.byteAt (0x200 + k) = image[k]) ∧ OnlyMem 0x200 image.length s t) ∧
    (s.on = true ∨ s.haltCause ≠ .none ∨ 3584 < image.length → hostAct (.load image) s = .next s)

/-- `start` and `stop` move between the run states as the table of R130 says (R132, R133; decisions D6 and D25). -/
def Obligations.StartAndStopFollowTheRunStates : Prop :=
  ∀ s : State,
    (s.on = false → s.haltCause = .none → hostAct .start s = .next { s with on := true }) ∧
    (s.on = true ∨ s.haltCause ≠ .none → hostAct .start s = .next s) ∧
    (s.on = true → ∃ t, hostAct .stop s = .next t ∧ HaltsWith .stopRequest 0 s.pc s t ∧ t.haltCause.code = 1) ∧
    (s.on = false → hostAct .stop s = .next s)

/-- A key write sets one key to pressed for a nonzero value, else to released; a redraw acknowledge clears needsRedraw;
neither changes anything else (R135, R136; decisions D21 and D28). -/
def Obligations.KeyWritesAndAcknowledgeTouchOneField : Prop :=
  ∀ (k : Fin 16) (v : Byte) (s : State),
    (∃ t, hostAct (.keyWrite k v) s = .next t ∧ (t.keyDown k = true ↔ v ≠ 0) ∧
      (∀ j, j ≠ k → t.keyDown j = s.keyDown j) ∧ { t with key := s.key } = s) ∧
    (∃ t, hostAct .redrawAck s = .next t ∧ t.needsRedraw = false ∧ { t with needsRedraw := s.needsRedraw } = s)

/-- Once a run has ended, no session without `init` leaves the terminal state or changes anything but the keypad and
needsRedraw (R130, R271; "terminal" is decision D6). -/
def Obligations.OnlyInitLeavesATerminalState : Prop :=
  ∀ (cs : List HostCommand) (s t : State), s.Terminal → HostCommand.init ∉ cs → session cs s = .next t →
    t.Terminal ∧ { t with key := s.key, needsRedraw := s.needsRedraw } = s ∧
      sessionTones cs s = List.replicate (cs.countP (fun c => match c with | .step _ => true | _ => false)) false

/-- Every session of host commands, steps with any input bytes among them, keeps the invariant of R38. -/
def Obligations.EverySessionKeepsTheInvariant : Prop :=
  ∀ (cs : List HostCommand) (s t : State), s.Inv → session cs s = .next t → t.Inv
end

