-- ==== Sys2Proof/Laws/State.lean ====
section
/-! SUPPORT. One lemma per field per update of State, each true by rfl, so that no proof unfolds a record update; and
what the accessors read after an update of another field. -/

namespace Sys2Proof.Machine

variable (s : State)

/-! ## setReg -/

@[simp] theorem setReg_mem (x : Reg) (v : Byte) : (s.setReg x v).mem = s.mem := rfl
@[simp] theorem setReg_V (x : Reg) (v : Byte) : (s.setReg x v).V = s.V.set x.val v x.isLt := rfl
@[simp] theorem setReg_pc (x : Reg) (v : Byte) : (s.setReg x v).pc = s.pc := rfl
@[simp] theorem setReg_stack (x : Reg) (v : Byte) : (s.setReg x v).stack = s.stack := rfl
@[simp] theorem setReg_sp (x : Reg) (v : Byte) : (s.setReg x v).sp = s.sp := rfl
@[simp] theorem setReg_I (x : Reg) (v : Byte) : (s.setReg x v).I = s.I := rfl
@[simp] theorem setReg_DT (x : Reg) (v : Byte) : (s.setReg x v).DT = s.DT := rfl
@[simp] theorem setReg_ST (x : Reg) (v : Byte) : (s.setReg x v).ST = s.ST := rfl
@[simp] theorem setReg_fb (x : Reg) (v : Byte) : (s.setReg x v).fb = s.fb := rfl
@[simp] theorem setReg_key (x : Reg) (v : Byte) : (s.setReg x v).key = s.key := rfl
@[simp] theorem setReg_needsRedraw (x : Reg) (v : Byte) : (s.setReg x v).needsRedraw = s.needsRedraw := rfl
@[simp] theorem setReg_cycles (x : Reg) (v : Byte) : (s.setReg x v).cycles = s.cycles := rfl
@[simp] theorem setReg_on (x : Reg) (v : Byte) : (s.setReg x v).on = s.on := rfl
@[simp] theorem setReg_haltCause (x : Reg) (v : Byte) : (s.setReg x v).haltCause = s.haltCause := rfl
@[simp] theorem setReg_haltOpcode (x : Reg) (v : Byte) : (s.setReg x v).haltOpcode = s.haltOpcode := rfl
@[simp] theorem setReg_haltAddr (x : Reg) (v : Byte) : (s.setReg x v).haltAddr = s.haltAddr := rfl
@[simp] theorem setReg_rnd (x : Reg) (v : Byte) : (s.setReg x v).rnd = s.rnd := rfl
@[simp] theorem setReg_draws (x : Reg) (v : Byte) : (s.setReg x v).draws = s.draws := rfl

@[simp] theorem setReg_stackAt (x : Reg) (v : Byte) (k : Fin 16) : (s.setReg x v).stackAt k = s.stackAt k := rfl
@[simp] theorem setReg_pixel (x : Reg) (v : Byte) (r : Fin 32) (c' : Fin 64) : (s.setReg x v).pixel r c' = s.pixel r c' := rfl
@[simp] theorem setReg_keyDown (x : Reg) (v : Byte) (k : Fin 16) : (s.setReg x v).keyDown k = s.keyDown k := rfl
@[simp] theorem setReg_byteAt (x : Reg) (v : Byte) (n : Nat) : (s.setReg x v).byteAt n = s.byteAt n := rfl

/-! ## setRegs -/

@[simp] theorem setRegs_mem (bs : List Byte) : (s.setRegs bs).mem = s.mem := rfl
@[simp] theorem setRegs_V (bs : List Byte) : (s.setRegs bs).V = setRegsFrom s.V 0 bs := rfl
@[simp] theorem setRegs_pc (bs : List Byte) : (s.setRegs bs).pc = s.pc := rfl
@[simp] theorem setRegs_stack (bs : List Byte) : (s.setRegs bs).stack = s.stack := rfl
@[simp] theorem setRegs_sp (bs : List Byte) : (s.setRegs bs).sp = s.sp := rfl
@[simp] theorem setRegs_I (bs : List Byte) : (s.setRegs bs).I = s.I := rfl
@[simp] theorem setRegs_DT (bs : List Byte) : (s.setRegs bs).DT = s.DT := rfl
@[simp] theorem setRegs_ST (bs : List Byte) : (s.setRegs bs).ST = s.ST := rfl
@[simp] theorem setRegs_fb (bs : List Byte) : (s.setRegs bs).fb = s.fb := rfl
@[simp] theorem setRegs_key (bs : List Byte) : (s.setRegs bs).key = s.key := rfl
@[simp] theorem setRegs_needsRedraw (bs : List Byte) : (s.setRegs bs).needsRedraw = s.needsRedraw := rfl
@[simp] theorem setRegs_cycles (bs : List Byte) : (s.setRegs bs).cycles = s.cycles := rfl
@[simp] theorem setRegs_on (bs : List Byte) : (s.setRegs bs).on = s.on := rfl
@[simp] theorem setRegs_haltCause (bs : List Byte) : (s.setRegs bs).haltCause = s.haltCause := rfl
@[simp] theorem setRegs_haltOpcode (bs : List Byte) : (s.setRegs bs).haltOpcode = s.haltOpcode := rfl
@[simp] theorem setRegs_haltAddr (bs : List Byte) : (s.setRegs bs).haltAddr = s.haltAddr := rfl
@[simp] theorem setRegs_rnd (bs : List Byte) : (s.setRegs bs).rnd = s.rnd := rfl
@[simp] theorem setRegs_draws (bs : List Byte) : (s.setRegs bs).draws = s.draws := rfl

@[simp] theorem setRegs_stackAt (bs : List Byte) (k : Fin 16) : (s.setRegs bs).stackAt k = s.stackAt k := rfl
@[simp] theorem setRegs_pixel (bs : List Byte) (r : Fin 32) (c' : Fin 64) : (s.setRegs bs).pixel r c' = s.pixel r c' := rfl
@[simp] theorem setRegs_keyDown (bs : List Byte) (k : Fin 16) : (s.setRegs bs).keyDown k = s.keyDown k := rfl
@[simp] theorem setRegs_byteAt (bs : List Byte) (n : Nat) : (s.setRegs bs).byteAt n = s.byteAt n := rfl

/-! ## setPc -/

@[simp] theorem setPc_mem (w : Word) : (s.setPc w).mem = s.mem := rfl
@[simp] theorem setPc_V (w : Word) : (s.setPc w).V = s.V := rfl
@[simp] theorem setPc_pc (w : Word) : (s.setPc w).pc = w := rfl
@[simp] theorem setPc_stack (w : Word) : (s.setPc w).stack = s.stack := rfl
@[simp] theorem setPc_sp (w : Word) : (s.setPc w).sp = s.sp := rfl
@[simp] theorem setPc_I (w : Word) : (s.setPc w).I = s.I := rfl
@[simp] theorem setPc_DT (w : Word) : (s.setPc w).DT = s.DT := rfl
@[simp] theorem setPc_ST (w : Word) : (s.setPc w).ST = s.ST := rfl
@[simp] theorem setPc_fb (w : Word) : (s.setPc w).fb = s.fb := rfl
@[simp] theorem setPc_key (w : Word) : (s.setPc w).key = s.key := rfl
@[simp] theorem setPc_needsRedraw (w : Word) : (s.setPc w).needsRedraw = s.needsRedraw := rfl
@[simp] theorem setPc_cycles (w : Word) : (s.setPc w).cycles = s.cycles := rfl
@[simp] theorem setPc_on (w : Word) : (s.setPc w).on = s.on := rfl
@[simp] theorem setPc_haltCause (w : Word) : (s.setPc w).haltCause = s.haltCause := rfl
@[simp] theorem setPc_haltOpcode (w : Word) : (s.setPc w).haltOpcode = s.haltOpcode := rfl
@[simp] theorem setPc_haltAddr (w : Word) : (s.setPc w).haltAddr = s.haltAddr := rfl
@[simp] theorem setPc_rnd (w : Word) : (s.setPc w).rnd = s.rnd := rfl
@[simp] theorem setPc_draws (w : Word) : (s.setPc w).draws = s.draws := rfl

@[simp] theorem setPc_reg (w : Word) (r : Reg) : (s.setPc w).reg r = s.reg r := rfl
@[simp] theorem setPc_stackAt (w : Word) (k : Fin 16) : (s.setPc w).stackAt k = s.stackAt k := rfl
@[simp] theorem setPc_pixel (w : Word) (r : Fin 32) (c' : Fin 64) : (s.setPc w).pixel r c' = s.pixel r c' := rfl
@[simp] theorem setPc_keyDown (w : Word) (k : Fin 16) : (s.setPc w).keyDown k = s.keyDown k := rfl
@[simp] theorem setPc_byteAt (w : Word) (n : Nat) : (s.setPc w).byteAt n = s.byteAt n := rfl

/-! ## setIndex -/

@[simp] theorem setIndex_mem (w : Word) : (s.setIndex w).mem = s.mem := rfl
@[simp] theorem setIndex_V (w : Word) : (s.setIndex w).V = s.V := rfl
@[simp] theorem setIndex_pc (w : Word) : (s.setIndex w).pc = s.pc := rfl
@[simp] theorem setIndex_stack (w : Word) : (s.setIndex w).stack = s.stack := rfl
@[simp] theorem setIndex_sp (w : Word) : (s.setIndex w).sp = s.sp := rfl
@[simp] theorem setIndex_I (w : Word) : (s.setIndex w).I = w := rfl
@[simp] theorem setIndex_DT (w : Word) : (s.setIndex w).DT = s.DT := rfl
@[simp] theorem setIndex_ST (w : Word) : (s.setIndex w).ST = s.ST := rfl
@[simp] theorem setIndex_fb (w : Word) : (s.setIndex w).fb = s.fb := rfl
@[simp] theorem setIndex_key (w : Word) : (s.setIndex w).key = s.key := rfl
@[simp] theorem setIndex_needsRedraw (w : Word) : (s.setIndex w).needsRedraw = s.needsRedraw := rfl
@[simp] theorem setIndex_cycles (w : Word) : (s.setIndex w).cycles = s.cycles := rfl
@[simp] theorem setIndex_on (w : Word) : (s.setIndex w).on = s.on := rfl
@[simp] theorem setIndex_haltCause (w : Word) : (s.setIndex w).haltCause = s.haltCause := rfl
@[simp] theorem setIndex_haltOpcode (w : Word) : (s.setIndex w).haltOpcode = s.haltOpcode := rfl
@[simp] theorem setIndex_haltAddr (w : Word) : (s.setIndex w).haltAddr = s.haltAddr := rfl
@[simp] theorem setIndex_rnd (w : Word) : (s.setIndex w).rnd = s.rnd := rfl
@[simp] theorem setIndex_draws (w : Word) : (s.setIndex w).draws = s.draws := rfl

@[simp] theorem setIndex_reg (w : Word) (r : Reg) : (s.setIndex w).reg r = s.reg r := rfl
@[simp] theorem setIndex_stackAt (w : Word) (k : Fin 16) : (s.setIndex w).stackAt k = s.stackAt k := rfl
@[simp] theorem setIndex_pixel (w : Word) (r : Fin 32) (c' : Fin 64) : (s.setIndex w).pixel r c' = s.pixel r c' := rfl
@[simp] theorem setIndex_keyDown (w : Word) (k : Fin 16) : (s.setIndex w).keyDown k = s.keyDown k := rfl
@[simp] theorem setIndex_byteAt (w : Word) (n : Nat) : (s.setIndex w).byteAt n = s.byteAt n := rfl

/-! ## setDelayTimer -/

@[simp] theorem setDelayTimer_mem (v : Byte) : (s.setDelayTimer v).mem = s.mem := rfl
@[simp] theorem setDelayTimer_V (v : Byte) : (s.setDelayTimer v).V = s.V := rfl
@[simp] theorem setDelayTimer_pc (v : Byte) : (s.setDelayTimer v).pc = s.pc := rfl
@[simp] theorem setDelayTimer_stack (v : Byte) : (s.setDelayTimer v).stack = s.stack := rfl
@[simp] theorem setDelayTimer_sp (v : Byte) : (s.setDelayTimer v).sp = s.sp := rfl
@[simp] theorem setDelayTimer_I (v : Byte) : (s.setDelayTimer v).I = s.I := rfl
@[simp] theorem setDelayTimer_DT (v : Byte) : (s.setDelayTimer v).DT = v := rfl
@[simp] theorem setDelayTimer_ST (v : Byte) : (s.setDelayTimer v).ST = s.ST := rfl
@[simp] theorem setDelayTimer_fb (v : Byte) : (s.setDelayTimer v).fb = s.fb := rfl
@[simp] theorem setDelayTimer_key (v : Byte) : (s.setDelayTimer v).key = s.key := rfl
@[simp] theorem setDelayTimer_needsRedraw (v : Byte) : (s.setDelayTimer v).needsRedraw = s.needsRedraw := rfl
@[simp] theorem setDelayTimer_cycles (v : Byte) : (s.setDelayTimer v).cycles = s.cycles := rfl
@[simp] theorem setDelayTimer_on (v : Byte) : (s.setDelayTimer v).on = s.on := rfl
@[simp] theorem setDelayTimer_haltCause (v : Byte) : (s.setDelayTimer v).haltCause = s.haltCause := rfl
@[simp] theorem setDelayTimer_haltOpcode (v : Byte) : (s.setDelayTimer v).haltOpcode = s.haltOpcode := rfl
@[simp] theorem setDelayTimer_haltAddr (v : Byte) : (s.setDelayTimer v).haltAddr = s.haltAddr := rfl
@[simp] theorem setDelayTimer_rnd (v : Byte) : (s.setDelayTimer v).rnd = s.rnd := rfl
@[simp] theorem setDelayTimer_draws (v : Byte) : (s.setDelayTimer v).draws = s.draws := rfl

@[simp] theorem setDelayTimer_reg (v : Byte) (r : Reg) : (s.setDelayTimer v).reg r = s.reg r := rfl
@[simp] theorem setDelayTimer_stackAt (v : Byte) (k : Fin 16) : (s.setDelayTimer v).stackAt k = s.stackAt k := rfl
@[simp] theorem setDelayTimer_pixel (v : Byte) (r : Fin 32) (c' : Fin 64) : (s.setDelayTimer v).pixel r c' = s.pixel r c' := rfl
@[simp] theorem setDelayTimer_keyDown (v : Byte) (k : Fin 16) : (s.setDelayTimer v).keyDown k = s.keyDown k := rfl
@[simp] theorem setDelayTimer_byteAt (v : Byte) (n : Nat) : (s.setDelayTimer v).byteAt n = s.byteAt n := rfl

/-! ## setSoundTimer -/

@[simp] theorem setSoundTimer_mem (v : Byte) : (s.setSoundTimer v).mem = s.mem := rfl
@[simp] theorem setSoundTimer_V (v : Byte) : (s.setSoundTimer v).V = s.V := rfl
@[simp] theorem setSoundTimer_pc (v : Byte) : (s.setSoundTimer v).pc = s.pc := rfl
@[simp] theorem setSoundTimer_stack (v : Byte) : (s.setSoundTimer v).stack = s.stack := rfl
@[simp] theorem setSoundTimer_sp (v : Byte) : (s.setSoundTimer v).sp = s.sp := rfl
@[simp] theorem setSoundTimer_I (v : Byte) : (s.setSoundTimer v).I = s.I := rfl
@[simp] theorem setSoundTimer_DT (v : Byte) : (s.setSoundTimer v).DT = s.DT := rfl
@[simp] theorem setSoundTimer_ST (v : Byte) : (s.setSoundTimer v).ST = v := rfl
@[simp] theorem setSoundTimer_fb (v : Byte) : (s.setSoundTimer v).fb = s.fb := rfl
@[simp] theorem setSoundTimer_key (v : Byte) : (s.setSoundTimer v).key = s.key := rfl
@[simp] theorem setSoundTimer_needsRedraw (v : Byte) : (s.setSoundTimer v).needsRedraw = s.needsRedraw := rfl
@[simp] theorem setSoundTimer_cycles (v : Byte) : (s.setSoundTimer v).cycles = s.cycles := rfl
@[simp] theorem setSoundTimer_on (v : Byte) : (s.setSoundTimer v).on = s.on := rfl
@[simp] theorem setSoundTimer_haltCause (v : Byte) : (s.setSoundTimer v).haltCause = s.haltCause := rfl
@[simp] theorem setSoundTimer_haltOpcode (v : Byte) : (s.setSoundTimer v).haltOpcode = s.haltOpcode := rfl
@[simp] theorem setSoundTimer_haltAddr (v : Byte) : (s.setSoundTimer v).haltAddr = s.haltAddr := rfl
@[simp] theorem setSoundTimer_rnd (v : Byte) : (s.setSoundTimer v).rnd = s.rnd := rfl
@[simp] theorem setSoundTimer_draws (v : Byte) : (s.setSoundTimer v).draws = s.draws := rfl

@[simp] theorem setSoundTimer_reg (v : Byte) (r : Reg) : (s.setSoundTimer v).reg r = s.reg r := rfl
@[simp] theorem setSoundTimer_stackAt (v : Byte) (k : Fin 16) : (s.setSoundTimer v).stackAt k = s.stackAt k := rfl
@[simp] theorem setSoundTimer_pixel (v : Byte) (r : Fin 32) (c' : Fin 64) : (s.setSoundTimer v).pixel r c' = s.pixel r c' := rfl
@[simp] theorem setSoundTimer_keyDown (v : Byte) (k : Fin 16) : (s.setSoundTimer v).keyDown k = s.keyDown k := rfl
@[simp] theorem setSoundTimer_byteAt (v : Byte) (n : Nat) : (s.setSoundTimer v).byteAt n = s.byteAt n := rfl

/-! ## setDisplay -/

@[simp] theorem setDisplay_mem (fb : Framebuffer) : (s.setDisplay fb).mem = s.mem := rfl
@[simp] theorem setDisplay_V (fb : Framebuffer) : (s.setDisplay fb).V = s.V := rfl
@[simp] theorem setDisplay_pc (fb : Framebuffer) : (s.setDisplay fb).pc = s.pc := rfl
@[simp] theorem setDisplay_stack (fb : Framebuffer) : (s.setDisplay fb).stack = s.stack := rfl
@[simp] theorem setDisplay_sp (fb : Framebuffer) : (s.setDisplay fb).sp = s.sp := rfl
@[simp] theorem setDisplay_I (fb : Framebuffer) : (s.setDisplay fb).I = s.I := rfl
@[simp] theorem setDisplay_DT (fb : Framebuffer) : (s.setDisplay fb).DT = s.DT := rfl
@[simp] theorem setDisplay_ST (fb : Framebuffer) : (s.setDisplay fb).ST = s.ST := rfl
@[simp] theorem setDisplay_fb (fb : Framebuffer) : (s.setDisplay fb).fb = fb := rfl
@[simp] theorem setDisplay_key (fb : Framebuffer) : (s.setDisplay fb).key = s.key := rfl
@[simp] theorem setDisplay_needsRedraw (fb : Framebuffer) : (s.setDisplay fb).needsRedraw = true := rfl
@[simp] theorem setDisplay_cycles (fb : Framebuffer) : (s.setDisplay fb).cycles = s.cycles := rfl
@[simp] theorem setDisplay_on (fb : Framebuffer) : (s.setDisplay fb).on = s.on := rfl
@[simp] theorem setDisplay_haltCause (fb : Framebuffer) : (s.setDisplay fb).haltCause = s.haltCause := rfl
@[simp] theorem setDisplay_haltOpcode (fb : Framebuffer) : (s.setDisplay fb).haltOpcode = s.haltOpcode := rfl
@[simp] theorem setDisplay_haltAddr (fb : Framebuffer) : (s.setDisplay fb).haltAddr = s.haltAddr := rfl
@[simp] theorem setDisplay_rnd (fb : Framebuffer) : (s.setDisplay fb).rnd = s.rnd := rfl
@[simp] theorem setDisplay_draws (fb : Framebuffer) : (s.setDisplay fb).draws = s.draws := rfl

@[simp] theorem setDisplay_reg (fb : Framebuffer) (r : Reg) : (s.setDisplay fb).reg r = s.reg r := rfl
@[simp] theorem setDisplay_stackAt (fb : Framebuffer) (k : Fin 16) : (s.setDisplay fb).stackAt k = s.stackAt k := rfl
@[simp] theorem setDisplay_keyDown (fb : Framebuffer) (k : Fin 16) : (s.setDisplay fb).keyDown k = s.keyDown k := rfl
@[simp] theorem setDisplay_byteAt (fb : Framebuffer) (n : Nat) : (s.setDisplay fb).byteAt n = s.byteAt n := rfl

/-! ## raise -/

@[simp] theorem raise_mem (c : HaltCause) (o a : Word) : (raise c o a s).mem = s.mem := rfl
@[simp] theorem raise_V (c : HaltCause) (o a : Word) : (raise c o a s).V = s.V := rfl
@[simp] theorem raise_pc (c : HaltCause) (o a : Word) : (raise c o a s).pc = s.pc := rfl
@[simp] theorem raise_stack (c : HaltCause) (o a : Word) : (raise c o a s).stack = s.stack := rfl
@[simp] theorem raise_sp (c : HaltCause) (o a : Word) : (raise c o a s).sp = s.sp := rfl
@[simp] theorem raise_I (c : HaltCause) (o a : Word) : (raise c o a s).I = s.I := rfl
@[simp] theorem raise_DT (c : HaltCause) (o a : Word) : (raise c o a s).DT = s.DT := rfl
@[simp] theorem raise_ST (c : HaltCause) (o a : Word) : (raise c o a s).ST = s.ST := rfl
@[simp] theorem raise_fb (c : HaltCause) (o a : Word) : (raise c o a s).fb = s.fb := rfl
@[simp] theorem raise_key (c : HaltCause) (o a : Word) : (raise c o a s).key = s.key := rfl
@[simp] theorem raise_needsRedraw (c : HaltCause) (o a : Word) : (raise c o a s).needsRedraw = s.needsRedraw := rfl
@[simp] theorem raise_cycles (c : HaltCause) (o a : Word) : (raise c o a s).cycles = s.cycles := rfl
@[simp] theorem raise_on (c : HaltCause) (o a : Word) : (raise c o a s).on = false := rfl
@[simp] theorem raise_haltCause (c : HaltCause) (o a : Word) : (raise c o a s).haltCause = c := rfl
@[simp] theorem raise_haltOpcode (c : HaltCause) (o a : Word) : (raise c o a s).haltOpcode = o := rfl
@[simp] theorem raise_haltAddr (c : HaltCause) (o a : Word) : (raise c o a s).haltAddr = a := rfl
@[simp] theorem raise_rnd (c : HaltCause) (o a : Word) : (raise c o a s).rnd = s.rnd := rfl
@[simp] theorem raise_draws (c : HaltCause) (o a : Word) : (raise c o a s).draws = s.draws := rfl

@[simp] theorem raise_reg (c : HaltCause) (o a : Word) (r : Reg) : (raise c o a s).reg r = s.reg r := rfl
@[simp] theorem raise_stackAt (c : HaltCause) (o a : Word) (k : Fin 16) : (raise c o a s).stackAt k = s.stackAt k := rfl
@[simp] theorem raise_pixel (c : HaltCause) (o a : Word) (r : Fin 32) (c' : Fin 64) : (raise c o a s).pixel r c' = s.pixel r c' := rfl
@[simp] theorem raise_keyDown (c : HaltCause) (o a : Word) (k : Fin 16) : (raise c o a s).keyDown k = s.keyDown k := rfl
@[simp] theorem raise_byteAt (c : HaltCause) (o a : Word) (n : Nat) : (raise c o a s).byteAt n = s.byteAt n := rfl

/-! ## raiseIn -/

@[simp] theorem raiseIn_mem (c : HaltCause) (i : Instr) : (raiseIn c i s).mem = s.mem := rfl
@[simp] theorem raiseIn_V (c : HaltCause) (i : Instr) : (raiseIn c i s).V = s.V := rfl
@[simp] theorem raiseIn_pc (c : HaltCause) (i : Instr) : (raiseIn c i s).pc = s.pc := rfl
@[simp] theorem raiseIn_stack (c : HaltCause) (i : Instr) : (raiseIn c i s).stack = s.stack := rfl
@[simp] theorem raiseIn_sp (c : HaltCause) (i : Instr) : (raiseIn c i s).sp = s.sp := rfl
@[simp] theorem raiseIn_I (c : HaltCause) (i : Instr) : (raiseIn c i s).I = s.I := rfl
@[simp] theorem raiseIn_DT (c : HaltCause) (i : Instr) : (raiseIn c i s).DT = s.DT := rfl
@[simp] theorem raiseIn_ST (c : HaltCause) (i : Instr) : (raiseIn c i s).ST = s.ST := rfl
@[simp] theorem raiseIn_fb (c : HaltCause) (i : Instr) : (raiseIn c i s).fb = s.fb := rfl
@[simp] theorem raiseIn_key (c : HaltCause) (i : Instr) : (raiseIn c i s).key = s.key := rfl
@[simp] theorem raiseIn_needsRedraw (c : HaltCause) (i : Instr) : (raiseIn c i s).needsRedraw = s.needsRedraw := rfl
@[simp] theorem raiseIn_cycles (c : HaltCause) (i : Instr) : (raiseIn c i s).cycles = s.cycles := rfl
@[simp] theorem raiseIn_on (c : HaltCause) (i : Instr) : (raiseIn c i s).on = false := rfl
@[simp] theorem raiseIn_haltCause (c : HaltCause) (i : Instr) : (raiseIn c i s).haltCause = c := rfl
@[simp] theorem raiseIn_haltOpcode (c : HaltCause) (i : Instr) : (raiseIn c i s).haltOpcode = encode i := rfl
@[simp] theorem raiseIn_haltAddr (c : HaltCause) (i : Instr) : (raiseIn c i s).haltAddr = s.pc - 2 := rfl
@[simp] theorem raiseIn_rnd (c : HaltCause) (i : Instr) : (raiseIn c i s).rnd = s.rnd := rfl
@[simp] theorem raiseIn_draws (c : HaltCause) (i : Instr) : (raiseIn c i s).draws = s.draws := rfl

@[simp] theorem raiseIn_reg (c : HaltCause) (i : Instr) (r : Reg) : (raiseIn c i s).reg r = s.reg r := rfl
@[simp] theorem raiseIn_stackAt (c : HaltCause) (i : Instr) (k : Fin 16) : (raiseIn c i s).stackAt k = s.stackAt k := rfl
@[simp] theorem raiseIn_pixel (c : HaltCause) (i : Instr) (r : Fin 32) (c' : Fin 64) : (raiseIn c i s).pixel r c' = s.pixel r c' := rfl
@[simp] theorem raiseIn_keyDown (c : HaltCause) (i : Instr) (k : Fin 16) : (raiseIn c i s).keyDown k = s.keyDown k := rfl
@[simp] theorem raiseIn_byteAt (c : HaltCause) (i : Instr) (n : Nat) : (raiseIn c i s).byteAt n = s.byteAt n := rfl

/-! ## takeInput -/

@[simp] theorem takeInput_mem (b : Byte) : (takeInput b s).mem = s.mem := rfl
@[simp] theorem takeInput_V (b : Byte) : (takeInput b s).V = s.V := rfl
@[simp] theorem takeInput_pc (b : Byte) : (takeInput b s).pc = s.pc := rfl
@[simp] theorem takeInput_stack (b : Byte) : (takeInput b s).stack = s.stack := rfl
@[simp] theorem takeInput_sp (b : Byte) : (takeInput b s).sp = s.sp := rfl
@[simp] theorem takeInput_I (b : Byte) : (takeInput b s).I = s.I := rfl
@[simp] theorem takeInput_DT (b : Byte) : (takeInput b s).DT = s.DT := rfl
@[simp] theorem takeInput_ST (b : Byte) : (takeInput b s).ST = s.ST := rfl
@[simp] theorem takeInput_fb (b : Byte) : (takeInput b s).fb = s.fb := rfl
@[simp] theorem takeInput_key (b : Byte) : (takeInput b s).key = s.key := rfl
@[simp] theorem takeInput_needsRedraw (b : Byte) : (takeInput b s).needsRedraw = s.needsRedraw := rfl
@[simp] theorem takeInput_cycles (b : Byte) : (takeInput b s).cycles = s.cycles := rfl
@[simp] theorem takeInput_on (b : Byte) : (takeInput b s).on = s.on := rfl
@[simp] theorem takeInput_haltCause (b : Byte) : (takeInput b s).haltCause = s.haltCause := rfl
@[simp] theorem takeInput_haltOpcode (b : Byte) : (takeInput b s).haltOpcode = s.haltOpcode := rfl
@[simp] theorem takeInput_haltAddr (b : Byte) : (takeInput b s).haltAddr = s.haltAddr := rfl
@[simp] theorem takeInput_rnd (b : Byte) : (takeInput b s).rnd = b := rfl
@[simp] theorem takeInput_draws (b : Byte) : (takeInput b s).draws = s.draws + 1 := rfl

@[simp] theorem takeInput_reg (b : Byte) (r : Reg) : (takeInput b s).reg r = s.reg r := rfl
@[simp] theorem takeInput_stackAt (b : Byte) (k : Fin 16) : (takeInput b s).stackAt k = s.stackAt k := rfl
@[simp] theorem takeInput_pixel (b : Byte) (r : Fin 32) (c' : Fin 64) : (takeInput b s).pixel r c' = s.pixel r c' := rfl
@[simp] theorem takeInput_keyDown (b : Byte) (k : Fin 16) : (takeInput b s).keyDown k = s.keyDown k := rfl
@[simp] theorem takeInput_byteAt (b : Byte) (n : Nat) : (takeInput b s).byteAt n = s.byteAt n := rfl

/-! ## tick -/

@[simp] theorem tick_mem : (tick s).mem = s.mem := rfl
@[simp] theorem tick_V : (tick s).V = s.V := rfl
@[simp] theorem tick_pc : (tick s).pc = s.pc := rfl
@[simp] theorem tick_stack : (tick s).stack = s.stack := rfl
@[simp] theorem tick_sp : (tick s).sp = s.sp := rfl
@[simp] theorem tick_I : (tick s).I = s.I := rfl
@[simp] theorem tick_DT : (tick s).DT = countDown s.DT := rfl
@[simp] theorem tick_ST : (tick s).ST = countDown s.ST := rfl
@[simp] theorem tick_fb : (tick s).fb = s.fb := rfl
@[simp] theorem tick_key : (tick s).key = s.key := rfl
@[simp] theorem tick_needsRedraw : (tick s).needsRedraw = s.needsRedraw := rfl
@[simp] theorem tick_cycles : (tick s).cycles = s.cycles := rfl
@[simp] theorem tick_on : (tick s).on = s.on := rfl
@[simp] theorem tick_haltCause : (tick s).haltCause = s.haltCause := rfl
@[simp] theorem tick_haltOpcode : (tick s).haltOpcode = s.haltOpcode := rfl
@[simp] theorem tick_haltAddr : (tick s).haltAddr = s.haltAddr := rfl
@[simp] theorem tick_rnd : (tick s).rnd = s.rnd := rfl
@[simp] theorem tick_draws : (tick s).draws = s.draws := rfl

@[simp] theorem tick_reg (r : Reg) : (tick s).reg r = s.reg r := rfl
@[simp] theorem tick_stackAt (k : Fin 16) : (tick s).stackAt k = s.stackAt k := rfl
@[simp] theorem tick_pixel (r : Fin 32) (c' : Fin 64) : (tick s).pixel r c' = s.pixel r c' := rfl
@[simp] theorem tick_keyDown (k : Fin 16) : (tick s).keyDown k = s.keyDown k := rfl
@[simp] theorem tick_byteAt (n : Nat) : (tick s).byteAt n = s.byteAt n := rfl

/-! ## advance -/

@[simp] theorem advance_mem : (advance s).mem = s.mem := rfl
@[simp] theorem advance_V : (advance s).V = s.V := rfl
@[simp] theorem advance_pc : (advance s).pc = s.pc + 2 := rfl
@[simp] theorem advance_stack : (advance s).stack = s.stack := rfl
@[simp] theorem advance_sp : (advance s).sp = s.sp := rfl
@[simp] theorem advance_I : (advance s).I = s.I := rfl
@[simp] theorem advance_DT : (advance s).DT = s.DT := rfl
@[simp] theorem advance_ST : (advance s).ST = s.ST := rfl
@[simp] theorem advance_fb : (advance s).fb = s.fb := rfl
@[simp] theorem advance_key : (advance s).key = s.key := rfl
@[simp] theorem advance_needsRedraw : (advance s).needsRedraw = s.needsRedraw := rfl
@[simp] theorem advance_cycles : (advance s).cycles = s.cycles := rfl
@[simp] theorem advance_on : (advance s).on = s.on := rfl
@[simp] theorem advance_haltCause : (advance s).haltCause = s.haltCause := rfl
@[simp] theorem advance_haltOpcode : (advance s).haltOpcode = s.haltOpcode := rfl
@[simp] theorem advance_haltAddr : (advance s).haltAddr = s.haltAddr := rfl
@[simp] theorem advance_rnd : (advance s).rnd = s.rnd := rfl
@[simp] theorem advance_draws : (advance s).draws = s.draws := rfl

@[simp] theorem advance_reg (r : Reg) : (advance s).reg r = s.reg r := rfl
@[simp] theorem advance_stackAt (k : Fin 16) : (advance s).stackAt k = s.stackAt k := rfl
@[simp] theorem advance_pixel (r : Fin 32) (c' : Fin 64) : (advance s).pixel r c' = s.pixel r c' := rfl
@[simp] theorem advance_keyDown (k : Fin 16) : (advance s).keyDown k = s.keyDown k := rfl
@[simp] theorem advance_byteAt (n : Nat) : (advance s).byteAt n = s.byteAt n := rfl

end Sys2Proof.Machine
end

