-- ==== Sys2Proof/Laws/Commands.lean ====
section
/-! SUPPORT. What `init` leaves, and that no write of the host reaches memory while the run flag is on (20_memory.md R71). -/

namespace Sys2Proof.Machine

/-- `init` leaves the reset state from every state, RUNNING or not (R130, R131); the model's own counter goes on. -/
@[simp] theorem hostInit_eq (s : State) : hostInit s = { State.reset with draws := s.draws } := rfl

/-- The writes of `init` are not made while the run flag is on (R71). -/
theorem initWrite_running {s : State} (h : s.on = true) : initWrite s = s := by simp [initWrite, h]

/-- No byte of an image is written while the run flag is on (R71, R75). -/
theorem hostLoad_running {s : State} (h : s.on = true) (image : List Byte) : hostLoad image s = s := by
  simp [hostLoad, loadAdmitted, h]

end Sys2Proof.Machine
end

