-- ==== Sys2Proof/Laws/Registers.lean ====
section
/-! SUPPORT. Registers, the call stack, framebuffer cells: a read after a write. -/

namespace Sys2Proof.Machine

/-! ## Registers -/

theorem reg_setReg (s : State) (x : Reg) (v : Byte) (r : Reg) :
    (s.setReg x v).reg r = if r = x then v else s.reg r := by
  have e : r = x ↔ x.val = r.val := ⟨fun h => h ▸ rfl, fun h => Fin.ext h.symm⟩
  simp only [State.reg, State.setReg, Vector.get_eq_getElem, Vector.getElem_set, e]

@[simp] theorem reg_setReg_same (s : State) (x : Reg) (v : Byte) : (s.setReg x v).reg x = v := by simp [reg_setReg]

theorem reg_setReg_other (s : State) (v : Byte) {x r : Reg} (h : r ≠ x) : (s.setReg x v).reg r = s.reg r := by
  simp [reg_setReg, h]

/-- The registers after a flag-writing instruction (R170): V[x] is the result, VF is the flag unless x = F. -/
theorem reg_setFlagThenReg (s : State) (x : Reg) (flag result : Byte) (r : Reg) :
    (setFlagThenReg x flag result s).reg r = if r = x then result else if r = VF then flag else s.reg r := by
  simp only [setFlagThenReg, reg_setReg]

theorem setRegsFrom_get (bs : List Byte) (V : Vector Byte 16) (k : Nat) (h : k + bs.length ≤ 16) (r : Fin 16) :
    (setRegsFrom V k bs).get r = if hr : k ≤ r.val ∧ r.val < k + bs.length then bs[r.val - k] else V.get r := by
  induction bs generalizing V k with
  | nil =>
    simp [setRegsFrom]
  | cons b bs ih =>
    rw [List.length_cons] at h
    rw [setRegsFrom, ih _ _ (by omega), dif_pos (by omega : k < 16)]
    by_cases h1 : k + 1 ≤ r.val ∧ r.val < k + 1 + bs.length
    · rw [dif_pos h1, dif_pos ⟨by omega, by rw [List.length_cons]; omega⟩]
      have : r.val - k = (r.val - (k + 1)) + 1 := by omega
      simp [this]
    · rw [dif_neg h1]
      by_cases h2 : r.val = k
      · rw [dif_pos ⟨by omega, by rw [List.length_cons]; omega⟩]
        simp [Vector.get_eq_getElem, h2]
      · rw [dif_neg (by rw [List.length_cons]; omega)]
        simp only [Vector.get_eq_getElem]
        exact Vector.getElem_set_ne _ _ (fun e => h2 e.symm)

/-- The registers after FX65's loop (R205): V[r] is byte r of the list, those above it keep their value. -/
theorem reg_setRegs (s : State) (bs : List Byte) (h : bs.length ≤ 16) (r : Reg) :
    (s.setRegs bs).reg r = if hr : r.val < bs.length then bs[r.val] else s.reg r := by
  have := setRegsFrom_get bs s.V 0 (by omega) r
  simpa [State.reg] using this

@[simp] theorem length_regsTo (s : State) (x : Reg) : (s.regsTo x).length = x.val + 1 := by
  simp [State.regsTo]

/-- Entry k of the registers V[0] to V[x] is V[k]. -/
theorem getElem_regsTo (s : State) (x : Reg) (k : Nat) (h : k < (s.regsTo x).length) :
    (s.regsTo x)[k] = s.reg ⟨k, by rw [length_regsTo] at h; omega⟩ := by
  simp [State.regsTo, State.reg, Vector.get_eq_getElem]

/-! ## The call stack -/

/-- A push below 16 entries writes the entry at sp, and nothing else but sp (R153). -/
theorem push_next (s : State) (w : Word) (h : s.sp.val < 16) :
    s.push w = some { s with stack := s.stack.set s.sp.val w h, sp := ⟨s.sp.val + 1, by omega⟩ } := by
  simp [State.push, h]

theorem push_full (s : State) (w : Word) (h : s.sp = 16) : s.push w = none := by simp [State.push, h]

theorem pop_next (s : State) (h : 0 < s.sp.val) :
    s.pop = some (s.stackAt ⟨s.sp.val - 1, by omega⟩, { s with sp := ⟨s.sp.val - 1, by omega⟩ }) := by
  simp [State.pop, h]

theorem pop_empty (s : State) (h : s.sp = 0) : s.pop = none := by simp [State.pop, h]

/-! ## Framebuffer cells -/

theorem cell_flip (fb : Framebuffer) (r r' : Fin 32) (c c' : Fin 64) :
    (fb.flip r c).cell r' c' = if r' = r ∧ c' = c then !fb.cell r c else fb.cell r' c' := by
  simp only [Framebuffer.cell, Framebuffer.flip, Vector.get_eq_getElem, Vector.getElem_set]
  have er : r' = r ↔ r.val = r'.val := ⟨fun h => h ▸ rfl, fun h => Fin.ext h.symm⟩
  have ec : c' = c ↔ c.val = c'.val := ⟨fun h => h ▸ rfl, fun h => Fin.ext h.symm⟩
  by_cases hr : r.val = r'.val
  · by_cases hc : c.val = c'.val <;> simp [hr, hc, er, ec]
  · simp [hr, er]

@[simp] theorem cell_blank (r : Fin 32) (c : Fin 64) : Framebuffer.blank.cell r c = false := by
  simp [Framebuffer.cell, Framebuffer.blank, Vector.get_eq_getElem]

/-- A sprite pixel's cell under the spec's clipping (R222): the pixel's own position, when it is on the screen. -/
theorem screenCell_clip (row col : Nat) (r : Fin 32) (c : Fin 64) :
    screenCell .clip row col = some (r, c) ↔ r.val = row ∧ c.val = col := by
  unfold screenCell
  by_cases h : row < 32 ∧ col < 64
  · simp [h, Fin.ext_iff, eq_comm]
  · simp [h]; omega

end Sys2Proof.Machine
end

