-- ==== Sys2Proof/Laws/Display.lean ====
section
/-! SUPPORT. What drawing does, cell by cell: one pixel, one sprite byte, a whole sprite, as a blit over the set of cells
that lie under a set sprite bit; and the host's linear read of the cells. -/

namespace Sys2Proof.Machine

/-- The pair (framebuffer, collision) after drawing over the cells of `hit`: each of them is flipped, and the collision is
set when one of them was 1 (44_display.md R222). -/
structure Blit (hit : Fin 32 → Fin 64 → Prop) (p q : Framebuffer × Bool) : Prop where
  cell : ∀ r c, q.1.cell r c = true ↔ (p.1.cell r c = true ↔ ¬ hit r c)
  collision : q.2 = true ↔ p.2 = true ∨ ∃ r c, hit r c ∧ p.1.cell r c = true

theorem Blit.refl (p : Framebuffer × Bool) : Blit (fun _ _ => False) p p := ⟨by simp, by simp⟩

theorem Blit.congr {hit hit' : Fin 32 → Fin 64 → Prop} {p q : Framebuffer × Bool} (h : Blit hit p q)
    (e : ∀ r c, hit r c ↔ hit' r c) : Blit hit' p q := by
  have : hit = hit' := funext fun r => funext fun c => propext (e r c)
  exact this ▸ h

/-- Two blits over disjoint cells are one over all of them. -/
theorem Blit.trans {f g : Fin 32 → Fin 64 → Prop} {p q u : Framebuffer × Bool} (h : Blit f p q) (k : Blit g q u)
    (disjoint : ∀ r c, f r c → ¬ g r c) : Blit (fun r c => f r c ∨ g r c) p u where
  cell r c := by
    rw [k.cell, h.cell]
    have := disjoint r c
    tauto
  collision := by
    rw [k.collision, h.collision]
    constructor
    · rintro ((hp | ⟨r, c, hf, hc⟩) | ⟨r, c, hg, hc⟩)
      · exact .inl hp
      · exact .inr ⟨r, c, .inl hf, hc⟩
      · refine .inr ⟨r, c, .inr hg, ?_⟩
        have hnf : ¬ f r c := fun hf => disjoint r c hf hg
        exact ((h.cell r c).1 hc).2 hnf
    · rintro (hp | ⟨r, c, hf | hg, hc⟩)
      · exact .inl (.inl hp)
      · exact .inl (.inr ⟨r, c, hf, hc⟩)
      · refine .inr ⟨r, c, hg, ?_⟩
        have hnf : ¬ f r c := fun hf => disjoint r c hf hg
        exact (h.cell r c).2 ⟨fun _ => hnf, fun _ => hc⟩

/-- One sprite pixel under clipping. -/
theorem drawPixel_blit (row col : Nat) (p : Framebuffer × Bool) :
    Blit (fun r c => r.val = row ∧ c.val = col) p (drawPixel .clip row col p) := by
  cases hs : screenCell .clip row col with
  | none =>
    have hno : ∀ (r : Fin 32) (c : Fin 64), ¬ (r.val = row ∧ c.val = col) := fun r c h => by
      have := (screenCell_clip row col r c).2 h
      simp [this] at hs
    have : drawPixel .clip row col p = p := by simp [drawPixel, hs]
    rw [this]
    exact (Blit.refl p).congr fun r c => ⟨False.elim, hno r c⟩
  | some rc =>
    obtain ⟨r₀, c₀⟩ := rc
    obtain ⟨hr, hc⟩ := (screenCell_clip row col r₀ c₀).1 hs
    have hd : drawPixel .clip row col p = (p.1.flip r₀ c₀, p.2 || p.1.cell r₀ c₀) := by simp [drawPixel, hs]
    rw [hd]
    have e : ∀ (r : Fin 32) (c : Fin 64), (r.val = row ∧ c.val = col) ↔ (r = r₀ ∧ c = c₀) := fun r c => by
      simp only [Fin.ext_iff, hr, hc]
    refine ⟨fun r c => ?_, ?_⟩
    · rw [cell_flip, e]
      by_cases h : r = r₀ ∧ c = c₀
      · obtain ⟨rfl, rfl⟩ := h; simp
      · simp [h]
    · simp only [Bool.or_eq_true, e]
      constructor
      · rintro (h | h)
        · exact .inl h
        · exact .inr ⟨r₀, c₀, ⟨rfl, rfl⟩, h⟩
      · rintro (h | ⟨r, c, ⟨rfl, rfl⟩, h⟩)
        · exact .inl h
        · exact .inr h

/-- The last `k` bits of a sprite byte under clipping: bit k - 1 at column `col`, bit 0 at column col + k - 1. -/
theorem drawBits_blit (b : Byte) (row : Nat) (k col : Nat) (p : Framebuffer × Bool) :
    Blit (fun r c => r.val = row ∧ col ≤ c.val ∧ c.val < col + k ∧ b.getLsbD (col + k - 1 - c.val) = true) p
      (drawBits .clip b row col k p) := by
  induction k generalizing col p with
  | zero => exact (Blit.refl p).congr fun r c => ⟨False.elim, fun h => by omega⟩
  | succ k ih =>
    have first : Blit (fun r c => r.val = row ∧ c.val = col ∧ b.getLsbD k = true) p
        (if b.getLsbD k then drawPixel .clip row col p else p) := by
      by_cases hb : b.getLsbD k = true
      · rw [if_pos hb]
        exact (drawPixel_blit row col p).congr fun r c => by simp [hb]
      · rw [if_neg hb]
        exact (Blit.refl p).congr fun r c => by simp [hb]
    refine (first.trans (ih (col + 1) _) fun r c h h' => by omega).congr fun r c => ?_
    have e : ∀ d : Nat, col + 1 + k - 1 - d = col + (k + 1) - 1 - d := fun d => by omega
    rw [e]
    constructor
    · rintro (⟨hr, hc, hb⟩ | ⟨hr, h1, h2, hb⟩)
      · have : col + (k + 1) - 1 - c.val = k := by omega
        exact ⟨hr, by omega, by omega, by rw [this]; exact hb⟩
      · exact ⟨hr, by omega, by omega, hb⟩
    · rintro ⟨hr, h1, h2, hb⟩
      by_cases hc : c.val = col
      · have : col + (k + 1) - 1 - c.val = k := by omega
        exact .inl ⟨hr, hc, by rw [this] at hb; exact hb⟩
      · exact .inr ⟨hr, by omega, by omega, hb⟩

/-- A whole sprite under clipping: row r of the screen takes byte r - row of the sprite. -/
theorem drawSprite_blit (bs : List Byte) (row col : Nat) (p : Framebuffer × Bool) :
    Blit (fun r c => row ≤ r.val ∧ col ≤ c.val ∧ c.val < col + 8 ∧
      ∃ h : r.val - row < bs.length, (bs[r.val - row]'h).getLsbD (col + 8 - 1 - c.val) = true) p
      (drawSprite .clip col bs row p) := by
  induction bs generalizing row p with
  | nil => exact (Blit.refl p).congr fun r c => ⟨False.elim, fun ⟨_, _, _, h, _⟩ => by simp at h⟩
  | cons b bs ih =>
    refine ((drawBits_blit b row 8 col p).trans (ih (row + 1) _) fun r c h h' => by omega).congr fun r c => ?_
    constructor
    · rintro (⟨hr, h1, h2, hb⟩ | ⟨hr, h1, h2, h, hb⟩)
      · have : r.val - row = 0 := by omega
        exact ⟨by omega, h1, h2, by simp [this], by simpa [this] using hb⟩
      · have : r.val - row = (r.val - (row + 1)) + 1 := by omega
        exact ⟨by omega, h1, h2, by rw [List.length_cons]; omega, by simpa [this] using hb⟩
    · rintro ⟨hr, h1, h2, h, hb⟩
      by_cases h0 : r.val = row
      · exact .inl ⟨h0, h1, h2, by simpa [h0] using hb⟩
      · have : r.val - row = (r.val - (row + 1)) + 1 := by omega
        rw [List.length_cons] at h
        exact .inr ⟨by omega, h1, h2, by omega, by simpa [this] using hb⟩

/-! ## The host's linear read (R223) -/

@[simp] theorem indexRow_cellIndex (r : Fin 32) (c : Fin 64) : indexRow (cellIndex r c) = r :=
  Fin.ext (by simp only [indexRow, cellIndex]; omega)

@[simp] theorem indexCol_cellIndex (r : Fin 32) (c : Fin 64) : indexCol (cellIndex r c) = c :=
  Fin.ext (by simp only [indexCol, cellIndex]; omega)

@[simp] theorem cellIndex_indexRow_indexCol (k : Fin 2048) : cellIndex (indexRow k) (indexCol k) = k :=
  Fin.ext (by simp only [indexRow, indexCol, cellIndex]; omega)

theorem hostFramebuffer_get (s : State) (k : Fin 2048) :
    (hostFramebuffer s).get k = flagByte (s.pixel (indexRow k) (indexCol k)) := by
  simp [hostFramebuffer, Vector.get_eq_getElem]

/-- The byte a host finds at index r * 64 + c is cell (r, c) of the framebuffer (R223). -/
theorem hostFramebuffer_cell (s : State) (r : Fin 32) (c : Fin 64) :
    (hostFramebuffer s).get (cellIndex r c) = flagByte (s.pixel r c) := by
  simp [hostFramebuffer_get]

/-- Every byte a host reads is 0 or 1 (R223). -/
theorem hostFramebuffer_bit (s : State) (k : Fin 2048) :
    (hostFramebuffer s).get k = 0 ∨ (hostFramebuffer s).get k = 1 := by
  rw [hostFramebuffer_get]
  cases s.pixel (indexRow k) (indexCol k)
  · exact .inl rfl
  · exact .inr rfl

end Sys2Proof.Machine
end

