-- ==== Sys2Proof/Laws/Memory.lean ====
section
/-! SUPPORT. Memory: a read after a write, and the canonical form kept by every memory operation; what the access
primitives of an instruction answer inside memory. -/

namespace Sys2Proof.Machine

/-! ## One byte -/

@[simp] theorem Memory.byteAt_nil (a : Nat) : Memory.byteAt [] a = resetByte a := rfl

theorem Memory.byteAt_eraseCell_same (m : Memory) (a : Nat) : (m.eraseCell a).byteAt a = resetByte a := by
  induction m with
  | nil => rfl
  | cons c m ih =>
    obtain ⟨b, u⟩ := c
    by_cases h : b = a
    · simp [Memory.eraseCell, h, ih]
    · simp [Memory.eraseCell, Memory.byteAt, h, ih]

theorem Memory.byteAt_eraseCell_other (m : Memory) {a b : Nat} (h : b ≠ a) :
    (m.eraseCell a).byteAt b = m.byteAt b := by
  induction m with
  | nil => rfl
  | cons c m ih =>
    obtain ⟨d, u⟩ := c
    by_cases hd : d = a
    · have : d ≠ b := fun e => h (by omega)
      simp [Memory.eraseCell, Memory.byteAt, hd, ih, hd ▸ this]
    · simp [Memory.eraseCell, Memory.byteAt, hd, ih]

theorem Memory.eraseCell_ne (m : Memory) (a : Nat) : ∀ c ∈ m.eraseCell a, c.1 ≠ a ∧ c ∈ m := by
  induction m with
  | nil => intro c hc; cases hc
  | cons d m ih =>
    obtain ⟨b, u⟩ := d
    intro c hc
    by_cases h : b = a
    · rw [Memory.eraseCell, if_pos h] at hc
      exact ⟨(ih c hc).1, List.mem_cons_of_mem _ (ih c hc).2⟩
    · rw [Memory.eraseCell, if_neg h, List.mem_cons] at hc
      rcases hc with rfl | hc
      · exact ⟨h, List.mem_cons_self⟩
      · exact ⟨(ih c hc).1, List.mem_cons_of_mem _ (ih c hc).2⟩

theorem Memory.byteAt_insertCell (m : Memory) (a : Nat) (v : Byte) (hm : ∀ c ∈ m, c.1 ≠ a) (b : Nat) :
    (m.insertCell a v).byteAt b = if b = a then v else m.byteAt b := by
  induction m with
  | nil => simp [Memory.insertCell, Memory.byteAt, eq_comm]
  | cons c m ih =>
    obtain ⟨d, u⟩ := c
    have hd : d ≠ a := hm _ List.mem_cons_self
    have ih := ih (fun c hc => hm c (List.mem_cons_of_mem _ hc))
    by_cases hlt : a < d
    · by_cases hb : b = a
      · simp [Memory.insertCell, Memory.byteAt, hlt, hb]
      · have : ¬ a = b := fun e => hb e.symm
        simp [Memory.insertCell, Memory.byteAt, hlt, hb, this]
    · by_cases hb : d = b
      · subst hb
        simp [Memory.insertCell, Memory.byteAt, hlt, hd]
      · simp [Memory.insertCell, Memory.byteAt, hlt, hb, ih]

/-- A read after a write (R62, R71): the written address gives the value, every other one what it gave. -/
theorem Memory.byteAt_write (m : Memory) (a : Nat) (v : Byte) (b : Nat) :
    (m.write a v).byteAt b = if b = a then v else m.byteAt b := by
  unfold Memory.write
  split
  · by_cases hb : b = a
    · subst hb; simp [Memory.byteAt_eraseCell_same, *]
    · simp [hb, Memory.byteAt_eraseCell_other]
  · rw [Memory.byteAt_insertCell _ _ _ (fun c hc => (Memory.eraseCell_ne m a c hc).1)]
    by_cases hb : b = a
    · simp [hb]
    · simp [hb, Memory.byteAt_eraseCell_other]

@[simp] theorem Memory.byteAt_write_same (m : Memory) (a : Nat) (v : Byte) : (m.write a v).byteAt a = v := by
  simp [Memory.byteAt_write]

theorem Memory.byteAt_write_other (m : Memory) (v : Byte) {a b : Nat} (h : b ≠ a) :
    (m.write a v).byteAt b = m.byteAt b := by
  simp [Memory.byteAt_write, h]

/-! ## The canonical form -/

theorem Memory.wf_nil : Memory.wf [] := by decide

theorem Memory.mem_insertCell (m : Memory) (a : Nat) (v : Byte) :
    ∀ c ∈ m.insertCell a v, c = (a, v) ∨ c ∈ m := by
  induction m with
  | nil => intro c hc; exact .inl (by simpa [Memory.insertCell] using hc)
  | cons d m ih =>
    obtain ⟨b, u⟩ := d
    intro c hc
    by_cases h : a < b
    · rw [Memory.insertCell, if_pos h] at hc
      exact List.mem_cons.1 hc
    · rw [Memory.insertCell, if_neg h, List.mem_cons] at hc
      rcases hc with rfl | hc
      · exact .inr List.mem_cons_self
      · exact (ih c hc).imp_right (List.mem_cons_of_mem _)

theorem Memory.eraseCell_pairwise {m : Memory} (h : m.Pairwise (fun c d => c.1 < d.1)) (a : Nat) :
    (m.eraseCell a).Pairwise (fun c d => c.1 < d.1) := by
  induction m with
  | nil => exact h
  | cons c m ih =>
    obtain ⟨b, u⟩ := c
    rw [List.pairwise_cons] at h
    by_cases hb : b = a
    · rw [Memory.eraseCell, if_pos hb]; exact ih h.2
    · rw [Memory.eraseCell, if_neg hb, List.pairwise_cons]
      exact ⟨fun c hc => h.1 c (Memory.eraseCell_ne m a c hc).2, ih h.2⟩

theorem Memory.insertCell_pairwise {m : Memory} (h : m.Pairwise (fun c d => c.1 < d.1)) (a : Nat) (v : Byte)
    (hm : ∀ c ∈ m, c.1 ≠ a) : (m.insertCell a v).Pairwise (fun c d => c.1 < d.1) := by
  induction m with
  | nil => simp [Memory.insertCell]
  | cons c m ih =>
    obtain ⟨b, u⟩ := c
    have h' := List.pairwise_cons.1 h
    by_cases hb : a < b
    · rw [Memory.insertCell, if_pos hb, List.pairwise_cons]
      refine ⟨fun c hc => ?_, h⟩
      rcases List.mem_cons.1 hc with rfl | hc
      · exact hb
      · exact Nat.lt_trans hb (h'.1 c hc)
    · have hba : b < a := by
        have := hm _ List.mem_cons_self
        omega
      rw [Memory.insertCell, if_neg hb, List.pairwise_cons]
      refine ⟨fun c hc => ?_, ih h'.2 (fun c hc => hm c (List.mem_cons_of_mem _ hc))⟩
      rcases Memory.mem_insertCell m a v c hc with rfl | hc
      · exact hba
      · exact h'.1 c hc

/-- A write inside memory keeps the canonical form. -/
theorem Memory.write_wf {m : Memory} (h : m.wf) {a : Nat} (ha : a ≤ Config.memLast) (v : Byte) : (m.write a v).wf := by
  have he : (m.eraseCell a).wf := ⟨Memory.eraseCell_pairwise h.1 a, fun c hc => h.2 c (Memory.eraseCell_ne m a c hc).2⟩
  unfold Memory.write
  split
  · exact he
  · next hv =>
    refine ⟨Memory.insertCell_pairwise he.1 a v (fun c hc => (Memory.eraseCell_ne m a c hc).1), fun c hc => ?_⟩
    rcases Memory.mem_insertCell _ a v c hc with rfl | hc
    · exact ⟨ha, hv⟩
    · exact he.2 c hc

/-! ## Several bytes -/

/-- Inside memory a read of `n` bytes answers them in ascending order (R64, R66). -/
theorem readBytes_eq (m : Memory) (n a : Nat) (h : a + n ≤ Config.memLast + 1) :
    readBytes m a n = some ((List.range' a n).map m.byteAt) := by
  induction n generalizing a with
  | zero => rfl
  | succ n ih =>
    have ha : a ≤ Config.memLast := by omega
    simp [readBytes, memRead, ha, ih (a + 1) (by omega), List.range'_succ]

/-- Inside memory a store of bytes succeeds, keeps the canonical form, puts byte k at address a + k, and leaves every
other byte alone (R62, R64). -/
theorem writeBytes_spec (bs : List Byte) (m : Memory) (a : Nat) (h : a + bs.length ≤ Config.memLast + 1) :
    ∃ m', writeBytes m a bs = some m' ∧ (m.wf → m'.wf) ∧ (∀ (k : Nat) (hk : k < bs.length), m'.byteAt (a + k) = bs[k]) ∧
      ∀ b, b < a ∨ a + bs.length ≤ b → m'.byteAt b = m.byteAt b := by
  induction bs generalizing m a with
  | nil => exact ⟨m, rfl, id, fun k hk => absurd hk (by simp), fun b _ => rfl⟩
  | cons v bs ih =>
    rw [List.length_cons] at h
    have ha : a ≤ Config.memLast := by omega
    obtain ⟨m', hw, hwf, hk, hf⟩ := ih (m.write a v) (a + 1) (by omega)
    refine ⟨m', by simp [writeBytes, memWrite, ha, hw], fun hm => hwf (Memory.write_wf hm ha v), ?_, ?_⟩
    · intro k hk'
      cases k with
      | zero => rw [Nat.add_zero, hf a (by omega)]; simp
      | succ k =>
        have : a + (k + 1) = a + 1 + k := by omega
        rw [this, hk k (by simpa using hk')]; rfl
    · intro b hb
      rw [List.length_cons] at hb
      rw [hf b (by omega), Memory.byteAt_write_other _ _ (by omega)]

/-- An instruction's reads inside memory always succeed. -/
theorem loadBytes_next (a n : Nat) (s : State) (use : List Byte → State) (h : a + n ≤ Config.memLast + 1) :
    loadBytes a n s use = .next (use ((List.range' a n).map s.byteAt)) := by
  have : (fun b => s.mem.byteAt b) = s.byteAt := rfl
  simp [loadBytes, readBytes_eq s.mem n a h, ← this]

/-- An instruction's writes inside memory always succeed: only memory changes, in canonical form, and of memory only
the bytes stored to. -/
theorem storeBytes_next (a : Nat) (bs : List Byte) (s : State) (h : a + bs.length ≤ Config.memLast + 1) :
    ∃ m, storeBytes a bs s = .next { s with mem := m } ∧ (s.mem.wf → m.wf) ∧
      (∀ (k : Nat) (hk : k < bs.length), m.byteAt (a + k) = bs[k]) ∧
      ∀ b, b < a ∨ a + bs.length ≤ b → m.byteAt b = s.byteAt b := by
  obtain ⟨m, hw, rest⟩ := writeBytes_spec bs s.mem a h
  exact ⟨m, by simp [storeBytes, hw], rest⟩

/-- The image of a `load` (R75): canonical form, the image's bytes, nothing else. -/
theorem Memory.writeImage_spec (bs : List Byte) (m : Memory) (a : Nat) (h : a + bs.length ≤ Config.memLast + 1) :
    (m.wf → (m.writeImage a bs).wf) ∧ (∀ (k : Nat) (hk : k < bs.length), (m.writeImage a bs).byteAt (a + k) = bs[k]) ∧
      ∀ b, b < a ∨ a + bs.length ≤ b → (m.writeImage a bs).byteAt b = m.byteAt b := by
  induction bs generalizing m a with
  | nil => exact ⟨id, fun k hk => absurd hk (by simp), fun b _ => rfl⟩
  | cons v bs ih =>
    rw [List.length_cons] at h
    obtain ⟨hwf, hk, hf⟩ := ih (m.write a v) (a + 1) (by omega)
    refine ⟨fun hm => hwf (Memory.write_wf hm (by omega) v), ?_, ?_⟩
    · intro k hk'
      cases k with
      | zero => rw [Nat.add_zero, Memory.writeImage, hf a (by omega)]; simp
      | succ k =>
        have : a + (k + 1) = a + 1 + k := by omega
        rw [this, Memory.writeImage, hk k (by simpa using hk')]; rfl
    · intro b hb
      rw [List.length_cons] at hb
      rw [Memory.writeImage, hf b (by omega), Memory.byteAt_write_other _ _ (by omega)]

end Sys2Proof.Machine
end

