-- ==== Sys2Proof/Laws/Step.lean ====
section
/-! SUPPORT. The phases of a step: what each of them answers, and the equations of `coreStep`, which later proofs cite
instead of unfolding it; what a RUNNING step runs, and what it fetches after a store. -/

namespace Sys2Proof.Machine

/-- A countdown is one less, stopping at 0 (R122). -/
theorem countDown_eq (t : Byte) : countDown t = BitVec.ofNat 8 (t.toNat - 1) := by
  unfold countDown
  split
  · rfl
  · have : t.toNat = 0 := by omega
    exact BitVec.eq_of_toNat_eq (by simp [this])

theorem countDown_toNat (t : Byte) : (countDown t).toNat = t.toNat - 1 := by
  rw [countDown_eq, BitVec.toNat_ofNat]
  exact Nat.mod_eq_of_lt (by have := t.isLt; omega)

theorem joinBytes_toNat (hi lo : Byte) : (joinBytes hi lo).toNat = hi.toNat * 256 + lo.toNat := by
  rw [joinBytes, BitVec.toNat_ofNat]
  exact Nat.mod_eq_of_lt (by have := hi.isLt; have := lo.isLt; omega)

/-- Where the fetch is not refused it reads the two bytes at pc (R63, R69). -/
theorem fetchWord_eq (s : State) (h : fetchRefused s = false) :
    fetchWord s = some (joinBytes (s.byteAt s.pc.toNat) (s.byteAt (s.pc.toNat + 1))) := by
  have hp : s.pc.toNat ≤ 0xFFD := Nat.le_of_not_lt (of_decide_eq_false h)
  have h0 : s.pc.toNat ≤ Config.memLast := by unfold Config.memLast; omega
  have h1 : s.pc.toNat + 1 ≤ Config.memLast := by unfold Config.memLast; omega
  simp [fetchWord, memRead, h0, h1, State.byteAt]

theorem coreStep_stopped (rnd : Byte) (s : State) (h : s.on = false) : coreStep rnd s = .next s := by
  simp [coreStep, h]

theorem coreStep_refused (rnd : Byte) (s : State) (h : s.on = true) (hf : fetchRefused s = true) :
    coreStep rnd s = .next (raise .pcBounds 0 s.pc (tick (takeInput rnd s))) := by
  simp [coreStep, h, hf]

theorem coreStep_fetched (rnd : Byte) (s : State) (h : s.on = true) (hf : fetchRefused s = false) :
    coreStep rnd s = runWord (joinBytes (s.byteAt s.pc.toNat) (s.byteAt (s.pc.toNat + 1)))
      (advance (tick (takeInput rnd s))) := by
  simp [coreStep, h, hf, fetchWord_eq s hf]

theorem runWord_illegal {w : Word} (s : State) (h : decode w = none) :
    runWord w s = .next (raise .decodeError w (s.pc - 2) s) := by simp [runWord, h]

theorem runWord_next {w : Word} {i : Instr} {s t : State} (h : decode w = some i) (he : exec i s = .next t) :
    runWord w s = .next (countCycle t) := by simp [runWord, h, he]

/-- Every way a step can answer a next state: STOPPED, fetch refused, illegal word, or an instruction that ran. -/
theorem coreStep_cases {rnd : Byte} {s t : State} (h : coreStep rnd s = .next t) :
    (s.on = false ∧ t = s) ∨
    (s.on = true ∧ fetchRefused s = true ∧ t = raise .pcBounds 0 s.pc (tick (takeInput rnd s))) ∨
    (s.on = true ∧ fetchRefused s = false ∧
      ∃ w, w = joinBytes (s.byteAt s.pc.toNat) (s.byteAt (s.pc.toNat + 1)) ∧
        ((decode w = none ∧
            t = raise .decodeError w (s.pc + 2 - 2) (advance (tick (takeInput rnd s)))) ∨
          ∃ i u, decode w = some i ∧ exec i (advance (tick (takeInput rnd s))) = .next u ∧ t = countCycle u)) := by
  cases hon : s.on with
  | false =>
    rw [coreStep_stopped rnd s hon] at h
    exact .inl ⟨rfl, by injection h with h; exact h.symm⟩
  | true =>
    cases hf : fetchRefused s with
    | true =>
      rw [coreStep_refused rnd s hon hf] at h
      exact .inr (.inl ⟨rfl, rfl, by injection h with h; exact h.symm⟩)
    | false =>
      rw [coreStep_fetched rnd s hon hf] at h
      refine .inr (.inr ⟨rfl, rfl, _, rfl, ?_⟩)
      generalize joinBytes (s.byteAt s.pc.toNat) (s.byteAt (s.pc.toNat + 1)) = w at h
      cases hd : decode w with
      | none =>
        rw [runWord_illegal _ hd] at h
        exact .inl ⟨rfl, by injection h with h; exact h.symm⟩
      | some i =>
        unfold runWord at h
        simp only [hd] at h
        cases he : exec i (advance (tick (takeInput rnd s))) with
        | next u =>
          simp only [he] at h
          exact .inr ⟨i, u, rfl, he, by injection h with h; exact h.symm⟩
        | fault f => simp [he] at h
        | refused r => simp [he] at h

/-- Counting changes nothing but `cycles`. -/
theorem countCycle_eq (s : State) : countCycle s = { s with cycles := if s.on then s.cycles + 1 else s.cycles } := by
  unfold countCycle
  split <;> rfl

/-! ## The step in the terms of claims -/

/-- Phases 3 to 6 run on the fetched word, in the state the claims call `fetched` (R122 to R127). -/
theorem step_of_fetches {s : State} {w : Word} (h : Fetches s w) : step s = runWord w s.fetched := by
  have hf : fetchRefused s = false := decide_eq_false (Nat.not_lt.2 h.2.1)
  have hw : joinBytes (s.byteAt s.pc.toNat) (s.byteAt (s.pc.toNat + 1)) = w :=
    BitVec.eq_of_toNat_eq ((joinBytes_toNat _ _).trans h.2.2.symm)
  rw [step, coreStep_fetched _ _ h.1 hf, hw]
  simp [advance, tick, takeInput, State.fetched, countDown_eq]

/-- A RUNNING engine whose pc lets a fetch through fetches the two bytes at pc (R63, R123). -/
theorem nextFetch_of_running {s : State} (hon : s.on = true) (hp : s.pc.toNat ≤ 0xFFD) :
    NextFetch s ((s.byteAt s.pc.toNat).toNat * 256 + (s.byteAt (s.pc.toNat + 1)).toNat) :=
  have hf : Fetches s (joinBytes (s.byteAt s.pc.toNat) (s.byteAt (s.pc.toNat + 1))) := ⟨hon, hp, joinBytes_toNat _ _⟩
  ⟨_, joinBytes_toNat _ _, hf, fetchWord_eq s (decide_eq_false (Nat.not_lt.2 hp)), step_of_fetches hf⟩

/-- Memory that holds `bs` from `a` upward and is otherwise that of `s` reads as `byteAfterStore` says. -/
theorem byteAt_eq_byteAfterStore {s : State} {m : Memory} {a : Nat} {bs : List Byte}
    (stored : ∀ (k : Nat) (hk : k < bs.length), m.byteAt (a + k) = bs[k])
    (kept : ∀ b, b < a ∨ a + bs.length ≤ b → m.byteAt b = s.byteAt b) (b : Nat) :
    m.byteAt b = byteAfterStore s a bs b := by
  unfold byteAfterStore
  by_cases h : a ≤ b
  · rw [if_pos h]
    by_cases hk : b - a < bs.length
    · have hb := stored (b - a) hk
      rw [show a + (b - a) = b by omega] at hb
      simp [hb, List.getD, hk]
    · rw [kept b (by omega)]
      simp [List.getD, List.getElem?_eq_none (Nat.le_of_not_lt hk)]
  · rw [if_neg h, kept b (by omega)]

@[simp] theorem stepTimes_zero (s : State) : stepTimes 0 s = .next s := rfl

theorem stepTimes_succ {s t : State} (h : step s = .next t) (n : Nat) : stepTimes (n + 1) s = stepTimes n t := by
  simp only [stepTimes, h]

end Sys2Proof.Machine
end

