-- ==== Sys2Proof/Laws/Meanings.lean ====
section
/-! SUPPORT. The two ways of each meaning that can halt, and of FX0A: its equation under the condition that selects the
way, so that a proof about the instruction cites one of them and unfolds nothing. -/

namespace Sys2Proof.Machine

variable (s : State)

/-! ## Conditions -/

theorem indexOverruns_iff (k : Nat) : indexOverruns s k = true ↔ 0xFFF < s.I.toNat + k :=
  decide_eq_true_iff

theorem indexFits (k : Nat) (h : s.I.toNat + k ≤ 0xFFF) : indexOverruns s k = false := by
  rw [Bool.eq_false_iff, Ne, indexOverruns_iff]; omega

theorem length_bcdDigits (v : Byte) : (bcdDigits v).length = 3 := rfl

/-! ## Stack -/

theorem execRet_pops (h : 0 < s.sp.val) : execRet s = .next { s with
    sp := ⟨s.sp.val - 1, by omega⟩, pc := s.stackAt ⟨s.sp.val - 1, by omega⟩ } := by
  simp only [execRet, pop_next s h, State.setPc]

theorem execRet_halts (h : s.sp = 0) : execRet s = .next (raiseIn .stackUnderflow .ret s) := by
  simp only [execRet, pop_empty s h]

theorem execCall_pushes (nnn : Addr12) (h : s.sp.val < 16) : execCall nnn s = .next { s with
    stack := s.stack.set s.sp.val s.pc h, sp := ⟨s.sp.val + 1, by omega⟩, pc := target nnn } := by
  simp only [execCall, push_next s _ h, State.setPc]

theorem execCall_halts (nnn : Addr12) (h : s.sp = 16) :
    execCall nnn s = .next (raiseIn .stackOverflow (.call nnn) s) := by
  simp only [execCall, push_full s _ h]

/-! ## Accesses through I -/

theorem execBcd_halts (x : Reg) (h : 0xFFF < s.I.toNat + 2) :
    execBcd x s = .next (raiseIn .indexBounds (.bcd x) s) := by
  rw [execBcd, if_pos ((indexOverruns_iff s 2).2 h)]

theorem execBcd_stores (x : Reg) (h : s.I.toNat + 2 ≤ 0xFFF) :
    execBcd x s = storeBytes s.I.toNat (bcdDigits (s.reg x)) s := by
  rw [execBcd, indexFits s 2 h]; rfl

theorem execStoreRegs_halts (x : Reg) (h : 0xFFF < s.I.toNat + x.val) :
    execStoreRegs x s = .next (raiseIn .indexBounds (.storeRegs x) s) := by
  rw [execStoreRegs, if_pos ((indexOverruns_iff s _).2 h)]

theorem execStoreRegs_stores (x : Reg) (h : s.I.toNat + x.val ≤ 0xFFF) :
    execStoreRegs x s = storeBytes s.I.toNat (s.regsTo x) s := by
  rw [execStoreRegs, indexFits s _ h]; rfl

theorem execLoadRegs_halts (x : Reg) (h : 0xFFF < s.I.toNat + x.val) :
    execLoadRegs x s = .next (raiseIn .indexBounds (.loadRegs x) s) := by
  rw [execLoadRegs, if_pos ((indexOverruns_iff s _).2 h)]

theorem execLoadRegs_loads (x : Reg) (h : s.I.toNat + x.val ≤ 0xFFF) :
    execLoadRegs x s = .next (s.setRegs ((List.range' s.I.toNat (x.val + 1)).map s.byteAt)) := by
  rw [execLoadRegs, indexFits s _ h]
  exact loadBytes_next _ _ _ _ (by unfold Config.memLast indexAddr; omega)

theorem execDraw_halts (x y : Reg) (n : Nibble) (hn : 0 < n.val) (h : 0xFFF < s.I.toNat + (n.val - 1)) :
    execDraw x y n s = .next (raiseIn .indexBounds (.draw x y n) s) := by
  have hc : (decide (0 < n.val) && indexOverruns s (n.val - 1)) = true := by
    rw [Bool.and_eq_true, decide_eq_true_iff]
    exact ⟨hn, (indexOverruns_iff s _).2 h⟩
  rw [execDraw, if_pos hc]

theorem execDraw_draws (x y : Reg) (n : Nibble) (h : n.val = 0 ∨ s.I.toNat + (n.val - 1) ≤ 0xFFF) :
    execDraw x y n s = .next (drawAt x y s ((List.range' s.I.toNat n.val).map s.byteAt)) := by
  have hc : ¬ (decide (0 < n.val) && indexOverruns s (n.val - 1)) = true := by
    rw [Bool.and_eq_true, decide_eq_true_iff, indexOverruns_iff]; omega
  have hI := s.I.isLt
  rw [execDraw, if_neg hc]
  rcases Nat.eq_zero_or_pos n.val with h0 | h0
  · simp [h0, loadBytes, readBytes]
  · exact loadBytes_next _ _ _ _ (by unfold Config.memLast indexAddr; omega)

/-! ## FX0A -/

theorem selectedKey_none (h : ∀ k, s.keyDown k = false) : selectedKey .lowest s = none := by
  simp [selectedKey, pressedKeys, h]

/-- Under KEY_SELECT = lowest the selected key is the least pressed one (R244). -/
theorem selectedKey_least (k : Fin 16) (hk : s.keyDown k = true) (hj : ∀ j : Fin 16, j < k → s.keyDown j = false) :
    selectedKey .lowest s = some k := by
  have hs : keyNumbers.Pairwise (· < ·) := by decide
  have hm : ∀ j : Fin 16, j ∈ keyNumbers := by decide
  have hkm : k ∈ pressedKeys s := List.mem_filter.2 ⟨hm k, hk⟩
  have hp : (pressedKeys s).Pairwise (· < ·) := hs.filter _
  simp only [selectedKey]
  cases hl : pressedKeys s with
  | nil => rw [hl] at hkm; cases hkm
  | cons a as =>
    rw [hl] at hkm hp
    have ha : s.keyDown a = true := by
      have : a ∈ pressedKeys s := hl ▸ List.mem_cons_self
      exact (List.mem_filter.1 this).2
    rcases List.mem_cons.1 hkm with rfl | hmem
    · rfl
    · have := hj a ((List.pairwise_cons.1 hp).1 k hmem)
      simp [ha] at this

theorem execWaitKey_waits (x : Reg) (h : ∀ k, s.keyDown k = false) :
    execWaitKey x s = .next (s.setPc (s.pc - 2)) := by
  simp only [execWaitKey, Config.keySelect, selectedKey_none s h]

theorem execWaitKey_takes (x : Reg) (k : Fin 16) (hk : s.keyDown k = true)
    (hj : ∀ j : Fin 16, j < k → s.keyDown j = false) : execWaitKey x s = .next (s.setReg x (keyByte k)) := by
  simp only [execWaitKey, Config.keySelect, selectedKey_least s k hk hj]

/-! ## DXYN -/

/-- What DXYN's drawing leaves: VF is the collision, needsRedraw is set, the framebuffer is the blit of the sprite's
cells (R222). -/
theorem drawAt_blit (x y : Reg) (bytes : List Byte) :
    ∃ fb collision, drawAt x y s bytes = (s.setDisplay fb).setReg VF (flagByte collision) ∧
      Blit (fun r c => (s.reg y).toNat ≤ r.val ∧ (s.reg x).toNat ≤ c.val ∧ c.val < (s.reg x).toNat + 8 ∧
        ∃ h : r.val - (s.reg y).toNat < bytes.length,
          (bytes[r.val - (s.reg y).toNat]'h).getLsbD ((s.reg x).toNat + 8 - 1 - c.val) = true)
        (s.fb, false) (fb, collision) :=
  ⟨_, _, rfl, drawSprite_blit bytes (s.reg y).toNat (s.reg x).toNat (s.fb, false)⟩

end Sys2Proof.Machine
end

