-- ==== Sys2Proof/Laws/PerInstr.lean ====
section
/-! SUPPORT. Family EncodeMajor: the major opcode, bits 15 to 12, of every instruction's encoding (spec/30_encoding.md
R92, R99), one lemma per constructor. -/

namespace Sys2Proof.Laws.EncodeMajor

/-- The major opcode of an instruction, the first digit of its pattern (R95). -/
def major : Instr → Nat
  | .clearScreen | .ret | .legacyCall _ => 0x0
  | .jump _ => 0x1
  | .call _ => 0x2
  | .skipEqImm _ _ => 0x3
  | .skipNeqImm _ _ => 0x4
  | .skipEqReg _ _ => 0x5
  | .loadImm _ _ => 0x6
  | .addImm _ _ => 0x7
  | .move _ _ | .or _ _ | .and _ _ | .xor _ _ | .add _ _ | .sub _ _ | .shr _ _ | .subn _ _ | .shl _ _ => 0x8
  | .skipNeqReg _ _ => 0x9
  | .loadIndex _ => 0xA
  | .jumpOffset _ => 0xB
  | .rand _ _ => 0xC
  | .draw _ _ _ => 0xD
  | .skipKey _ | .skipNotkey _ => 0xE
  | .getDelay _ | .waitKey _ | .setDelay _ | .setSound _ | .addIndex _ | .fontAddr _ | .bcd _ | .storeRegs _
  | .loadRegs _ => 0xF

/-- The encoding's major opcode is the pattern's. -/
def Statement (i : Instr) : Prop := opField (encode i) = major i

theorem wordA_major (op : Nat) (h : op < 16) (nnn : Addr12) : opField (wordA op nnn) = op := by
  have := nnn.isLt
  simp only [opField, wordA, BitVec.toNat_ofNat]
  omega

theorem wordI_major (op : Nat) (h : op < 16) (x : Reg) (nn : Byte) : opField (wordI op x nn) = op := by
  have := nn.isLt
  simp only [opField, wordI, BitVec.toNat_ofNat]
  omega

theorem wordR_major (op : Nat) (h : op < 16) (x y : Reg) (n : Nibble) : opField (wordR op x y n) = op := by
  simp only [opField, wordR, BitVec.toNat_ofNat]
  omega

theorem clearScreen : Statement .clearScreen := rfl
theorem ret : Statement .ret := rfl
theorem legacyCall (nnn : Addr12) : Statement (.legacyCall nnn) := wordA_major _ (by decide) _
theorem jump (nnn : Addr12) : Statement (.jump nnn) := wordA_major _ (by decide) _
theorem call (nnn : Addr12) : Statement (.call nnn) := wordA_major _ (by decide) _
theorem skipEqImm (x : Reg) (nn : Byte) : Statement (.skipEqImm x nn) := wordI_major _ (by decide) _ _
theorem skipNeqImm (x : Reg) (nn : Byte) : Statement (.skipNeqImm x nn) := wordI_major _ (by decide) _ _
theorem skipEqReg (x y : Reg) : Statement (.skipEqReg x y) := wordR_major _ (by decide) _ _ _
theorem loadImm (x : Reg) (nn : Byte) : Statement (.loadImm x nn) := wordI_major _ (by decide) _ _
theorem addImm (x : Reg) (nn : Byte) : Statement (.addImm x nn) := wordI_major _ (by decide) _ _
theorem move (x y : Reg) : Statement (.move x y) := wordR_major _ (by decide) _ _ _
theorem or (x y : Reg) : Statement (.or x y) := wordR_major _ (by decide) _ _ _
theorem and (x y : Reg) : Statement (.and x y) := wordR_major _ (by decide) _ _ _
theorem xor (x y : Reg) : Statement (.xor x y) := wordR_major _ (by decide) _ _ _
theorem add (x y : Reg) : Statement (.add x y) := wordR_major _ (by decide) _ _ _
theorem sub (x y : Reg) : Statement (.sub x y) := wordR_major _ (by decide) _ _ _
theorem shr (x y : Reg) : Statement (.shr x y) := wordR_major _ (by decide) _ _ _
theorem subn (x y : Reg) : Statement (.subn x y) := wordR_major _ (by decide) _ _ _
theorem shl (x y : Reg) : Statement (.shl x y) := wordR_major _ (by decide) _ _ _
theorem skipNeqReg (x y : Reg) : Statement (.skipNeqReg x y) := wordR_major _ (by decide) _ _ _
theorem loadIndex (nnn : Addr12) : Statement (.loadIndex nnn) := wordA_major _ (by decide) _
theorem jumpOffset (nnn : Addr12) : Statement (.jumpOffset nnn) := wordA_major _ (by decide) _
theorem rand (x : Reg) (nn : Byte) : Statement (.rand x nn) := wordI_major _ (by decide) _ _
theorem draw (x y : Reg) (n : Nibble) : Statement (.draw x y n) := wordR_major _ (by decide) _ _ _
theorem skipKey (x : Reg) : Statement (.skipKey x) := wordI_major _ (by decide) _ _
theorem skipNotkey (x : Reg) : Statement (.skipNotkey x) := wordI_major _ (by decide) _ _
theorem getDelay (x : Reg) : Statement (.getDelay x) := wordI_major _ (by decide) _ _
theorem waitKey (x : Reg) : Statement (.waitKey x) := wordI_major _ (by decide) _ _
theorem setDelay (x : Reg) : Statement (.setDelay x) := wordI_major _ (by decide) _ _
theorem setSound (x : Reg) : Statement (.setSound x) := wordI_major _ (by decide) _ _
theorem addIndex (x : Reg) : Statement (.addIndex x) := wordI_major _ (by decide) _ _
theorem fontAddr (x : Reg) : Statement (.fontAddr x) := wordI_major _ (by decide) _ _
theorem bcd (x : Reg) : Statement (.bcd x) := wordI_major _ (by decide) _ _
theorem storeRegs (x : Reg) : Statement (.storeRegs x) := wordI_major _ (by decide) _ _
theorem loadRegs (x : Reg) : Statement (.loadRegs x) := wordI_major _ (by decide) _ _

end Sys2Proof.Laws.EncodeMajor
end

