-- ==== Sys2Proof/Tests/Slice0.lean ====
section
/-! SUPPORT. Tests on small states. Expected values are those of spec/95_test_vectors.md (the id in the docstring), of the
examples in the rules, or worked out by hand from the tables of spec/30_encoding.md. The last part shows, for every
obligation that has hypotheses, a state and operands that meet them (`witness_…`). -/

namespace Sys2Proof.Tests

open Sys2Proof Sys2Proof.Machine

-- One theorem after another: in parallel, each kernel evaluation below would hold a thread and its stack.
set_option Elab.async false

/-! ## The helpers -/

/-- `r` answers a next state on which `p` holds. -/
def holdsNext (r : Result) (p : State → Bool) : Bool :=
  match r with
  | .next t => p t
  | .fault _ => false
  | .refused _ => false

theorem holdsNext_iff {r : Result} {p : State → Bool} : holdsNext r p = true ↔ ∃ t, r = .next t ∧ p t = true := by
  cases r <;> simp [holdsNext]

/-- Registers set from a list of (number, value). -/
def withRegs (s : State) (vs : List (Reg × Byte)) : State := vs.foldl (fun s v => s.setReg v.1 v.2) s

/-- Bytes of memory set from an address upward. -/
def withBytes (s : State) (a : Nat) (bs : List Byte) : State := { s with mem := s.mem.writeImage a bs }

/-- The state after `init` and `start` (the start state of 95_test_vectors.md). -/
def idle : State := { State.reset with on := true }

/-- `s` RUNNING at `pc` with the opcode `w` there. -/
def at_ (pc w : Word) (s : State) : State := ({ s with pc := pc }).withFetchWord 16 w.toNat

/-- The registers V1 and V2 set. -/
def v12 (a b : Byte) : State := withRegs idle [(1, a), (2, b)]

/-- `idle` with keys pressed. -/
def pressing (ks : List (Fin 16)) : State := { idle with key := Vector.ofFn (fun k => ks.contains k) }

/-- `idle` with the cells of row 0 in the listed columns lit. -/
def litRow0 (cs : List (Fin 64)) (s : State) : State :=
  { s with fb := cs.foldl (fun fb c => fb.flip 0 c) Framebuffer.blank }

/-- Every cell named is lit, or every cell named is dark; a cell is (row, column). -/
def cells (v : Bool) (rcs : List (Fin 32 × Fin 64)) (s : State) : Bool := rcs.all (fun rc => s.pixel rc.1 rc.2 == v)

/-! ## Well-formedness -/

theorem test_wellFormed_refuses_0E0 : ¬ (Instr.legacyCall 0x0E0).WellFormed := by decide

theorem test_wellFormed_refuses_0EE : ¬ (Instr.legacyCall 0x0EE).WellFormed := by decide

/-- F16: neighbours of the two words are legacy-call. -/
theorem test_wellFormed_admits_neighbours :
    (Instr.legacyCall 0x0E1).WellFormed ∧ (Instr.legacyCall 0x1E0).WellFormed ∧ (Instr.legacyCall 0xFEE).WellFormed := by
  decide

/-! ## Decoding: words written out from R91, R92 and R95 -/

theorem test_decode_flow :
    decode 0b0000_0000_1110_1110 = some .ret ∧
    decode 0b0000_0001_0010_0011 = some (.legacyCall 0x123) ∧
    decode 0b0001_1101_1110_1101 = some (.jump 0xDED) ∧
    decode 0b0010_1101_1110_1101 = some (.call 0xDED) ∧
    decode 0b0011_1110_1010_1101 = some (.skipEqImm 0xE 0xAD) ∧
    decode 0b0100_1010_0000_0001 = some (.skipNeqImm 0xA 0x01) ∧
    decode 0b0101_0001_0010_0000 = some (.skipEqReg 1 2) ∧
    decode 0b1001_0001_0010_0000 = some (.skipNeqReg 1 2) ∧
    decode 0b1011_0011_0000_0100 = some (.jumpOffset 0x304) := by decide

theorem test_decode_alu :
    decode 0b0110_1010_0010_1111 = some (.loadImm 0xA 0x2F) ∧
    decode 0b0111_0011_0000_0010 = some (.addImm 3 0x02) ∧
    decode 0b1000_0001_0010_0000 = some (.move 1 2) ∧
    decode 0b1000_0001_0010_0001 = some (.or 1 2) ∧
    decode 0b1000_0001_0010_0010 = some (.and 1 2) ∧
    decode 0b1000_0001_0010_0011 = some (.xor 1 2) ∧
    decode 0b1000_0001_0010_0100 = some (.add 1 2) ∧
    decode 0b1000_0001_0010_0101 = some (.sub 1 2) ∧
    decode 0b1000_0001_0010_0110 = some (.shr 1 2) ∧
    decode 0b1000_0001_0010_0111 = some (.subn 1 2) ∧
    decode 0b1000_0001_0010_1110 = some (.shl 1 2) ∧
    decode 0b1100_0011_0000_1111 = some (.rand 3 0x0F) := by decide

theorem test_decode_index_memory :
    decode 0b1010_0011_0000_0001 = some (.loadIndex 0x301) ∧
    decode 0b1111_0001_0001_1110 = some (.addIndex 1) ∧
    decode 0b1111_0100_0010_1001 = some (.fontAddr 4) ∧
    decode 0b1111_0010_0011_0011 = some (.bcd 2) ∧
    decode 0b1111_0010_0101_0101 = some (.storeRegs 2) ∧
    decode 0b1111_0010_0110_0101 = some (.loadRegs 2) := by decide

theorem test_decode_display :
    decode 0b0000_0000_1110_0000 = some .clearScreen ∧
    decode 0b1101_0001_0010_1111 = some (.draw 1 2 15) := by decide

theorem test_decode_keypad_timers :
    decode 0b1110_0010_1001_1110 = some (.skipKey 2) ∧
    decode 0b1110_0010_1010_0001 = some (.skipNotkey 2) ∧
    decode 0b1111_0010_0000_0111 = some (.getDelay 2) ∧
    decode 0b1111_0011_0000_1010 = some (.waitKey 3) ∧
    decode 0b1111_0100_0001_0101 = some (.setDelay 4) ∧
    decode 0b1111_0001_0001_1000 = some (.setSound 1) := by decide

/-- X3 to X7: rejected by name. -/
theorem test_decode_rejects_illegal_words :
    decodeBytes [0x51, 0x21] = .illegal 0x5121 ∧ decodeBytes [0x80, 0x08] = .illegal 0x8008 ∧
    decodeBytes [0xE0, 0x00] = .illegal 0xE000 ∧ decodeBytes [0xF0, 0xFF] = .illegal 0xF0FF ∧
    decodeBytes [0x9A, 0xB1] = .illegal 0x9AB1 ∧ decodeBytes [0x00] = .tooShort ∧ decodeBytes [] = .tooShort := by decide

theorem test_decodeTableWord : decodeTableWord 16 0xD12F = some (.draw 1 2 15) ∧ decodeTableWord 16 0x5121 = none := by
  decide

/-! ## Control transfer -/

/-- F14. -/
theorem test_legacyCall : holdsNext (step (at_ 0x200 0x0123 idle)) (fun t => t.pc == 0x202 && t.cycles == 1) = true := by
  decide +kernel

/-- S5, first half. -/
theorem test_call : holdsNext (exec (.call 0xDED) { idle with pc := 0xABCD })
    (fun t => t.sp == 1 && t.stackAt 0 == 0xABCD && t.pc == 0x0DED) = true := by decide +kernel

/-- X9. -/
theorem test_call_overflow : holdsNext (step (at_ 0x200 0x2300 { idle with sp := 16 }))
    (fun t => !t.on && t.haltCause == .stackOverflow && t.haltOpcode == 0x2300 && t.haltAddr == 0x200 &&
      t.pc == 0x202 && t.sp == 16) = true := by decide +kernel

/-- F1, second step. -/
theorem test_ret : holdsNext (step (at_ 0x210 0x00EE { idle with sp := 1, stack := idle.stack.set 0 0x0204 }))
    (fun t => t.pc == 0x204 && t.sp == 0 && t.stackAt 0 == 0x0204) = true := by decide +kernel

/-- X8. -/
theorem test_ret_underflow : holdsNext (step (at_ 0x200 0x00EE idle))
    (fun t => !t.on && t.haltCause == .stackUnderflow && t.haltOpcode == 0x00EE && t.haltAddr == 0x200 &&
      t.pc == 0x202 && t.sp == 0 && t.cycles == 0) = true := by decide +kernel

/-- S6. -/
theorem test_jump : holdsNext (exec (.jump 0xDED) idle) (fun t => t.pc == 0x0DED) = true := by decide +kernel

/-- F4 and F6. -/
theorem test_jumpOffset :
    holdsNext (exec (.jumpOffset 0xFFF) (withRegs idle [(0, 0xFF)])) (fun t => t.pc == 0x10FE) = true ∧
    holdsNext (exec (.jumpOffset 0x300) (withRegs idle [(0, 0x04), (3, 0x50)])) (fun t => t.pc == 0x304) = true := by
  decide +kernel

/-- S7. -/
theorem test_skipEqImm :
    holdsNext (step (at_ 0x200 0x3EAD (withRegs idle [(0xE, 0xAD)]))) (fun t => t.pc == 0x204) = true ∧
    holdsNext (step (at_ 0x200 0x3EAD (withRegs idle [(0xE, 0xAC)]))) (fun t => t.pc == 0x202) = true := by
  decide +kernel

/-- F7 and F8. -/
theorem test_skipNeqImm :
    holdsNext (step (at_ 0x200 0x4133 (v12 0x33 0))) (fun t => t.pc == 0x202) = true ∧
    holdsNext (step (at_ 0x200 0x4133 (v12 0x34 0))) (fun t => t.pc == 0x204) = true := by decide +kernel

/-- F9 and F10. -/
theorem test_skipEqReg :
    holdsNext (step (at_ 0x200 0x5120 (v12 0x7F 0x7F))) (fun t => t.pc == 0x204) = true ∧
    holdsNext (step (at_ 0x200 0x5120 (v12 0x7F 0x80))) (fun t => t.pc == 0x202) = true := by decide +kernel

/-- F12 and F13. -/
theorem test_skipNeqReg :
    holdsNext (step (at_ 0x200 0x9120 (v12 0x7F 0x80))) (fun t => t.pc == 0x204) = true ∧
    holdsNext (step (at_ 0x200 0x9220 (v12 0x7F 0x80))) (fun t => t.pc == 0x202) = true := by decide +kernel

/-! ## Registers, arithmetic, logic, random -/

/-- V1 and VF after an instruction from V1 = a, V2 = b and VF = f. -/
def after12 (i : Instr) (a b f v1 vf : Byte) : Bool :=
  holdsNext (exec i (withRegs (v12 a b) [(VF, f)])) (fun t => t.reg 1 == v1 && t.reg VF == vf && t.reg 2 == b)

/-- A25. -/
theorem test_loadImm : holdsNext (exec (.loadImm 0xA 0xFF) idle) (fun t => t.reg 0xA == 0xFF && t.reg VF == 0) = true := by
  decide +kernel

/-- A23 and A24. -/
theorem test_addImm : after12 (.addImm 1 0x02) 0xFF 0 0 0x01 0 = true ∧
    holdsNext (exec (.addImm VF 0x01) (withRegs idle [(VF, 0xFF)])) (fun t => t.reg VF == 0) = true := by decide +kernel

/-- A26. -/
theorem test_move : after12 (.move 1 2) 0x11 0x22 1 0x22 1 = true := by decide +kernel

/-- A27. -/
theorem test_or : after12 (.or 1 2) 0xF0 0x0F 1 0xFF 1 = true := by decide +kernel

/-- A28. -/
theorem test_and : after12 (.and 1 2) 0xF0 0x3C 1 0x30 1 = true := by decide +kernel

/-- A29. -/
theorem test_xor : after12 (.xor 1 2) 0xF0 0x3C 1 0xCC 1 = true := by decide +kernel

/-- A1, A2, A3. -/
theorem test_add : after12 (.add 1 2) 0xFF 0x01 0 0x00 1 = true ∧ after12 (.add 1 2) 0x80 0x7F 1 0xFF 0 = true ∧
    after12 (.add 1 2) 0 0 1 0 0 = true := by decide +kernel

/-- A6 and A6b: VF as an operand. -/
theorem test_add_VF :
    holdsNext (exec (.add VF 1) (withRegs (v12 0x20 0) [(VF, 0xF0)])) (fun t => t.reg VF == 0x10) = true ∧
    holdsNext (exec (.add 1 VF) (withRegs (v12 0x01 0) [(VF, 0xFF)]))
      (fun t => t.reg 1 == 0x00 && t.reg VF == 1) = true := by decide +kernel

/-- A7, A8, A9, A10. -/
theorem test_sub : after12 (.sub 1 2) 0x05 0x05 0 0x00 1 = true ∧ after12 (.sub 1 2) 0x00 0x01 1 0xFF 0 = true ∧
    after12 (.sub 1 2) 0x10 0x20 1 0xF0 0 = true ∧ after12 (.sub 1 2) 0xFF 0x00 0 0xFF 1 = true := by decide +kernel

/-- A11, A12, A13, A14. -/
theorem test_subn : after12 (.subn 1 2) 0x01 0x00 1 0xFF 0 = true ∧ after12 (.subn 1 2) 0x00 0x01 0 0x01 1 = true ∧
    after12 (.subn 1 2) 0x07 0x07 0 0x00 1 = true ∧ after12 (.subn 1 2) 0x20 0x10 1 0xF0 0 = true := by decide +kernel

/-- A15, A16, A22. -/
theorem test_shr : after12 (.shr 1 2) 0x01 0 0 0x00 1 = true ∧ after12 (.shr 1 2) 0xFE 0x55 1 0x7F 0 = true ∧
    holdsNext (exec (.shr VF 0) (withRegs idle [(VF, 0x03)])) (fun t => t.reg VF == 0x01) = true := by decide +kernel

/-- A19, A20, A22b. -/
theorem test_shl : after12 (.shl 1 2) 0x80 0 0 0x00 1 = true ∧ after12 (.shl 1 2) 0x7F 0x55 1 0xFE 0 = true ∧
    holdsNext (exec (.shl VF 0) (withRegs idle [(VF, 0x81)])) (fun t => t.reg VF == 0x02) = true := by decide +kernel

/-- A31 and A33. -/
theorem test_rand :
    holdsNext (exec (.rand 1 0x0F) { idle with rnd := 0xA5 }) (fun t => t.reg 1 == 0x05 && t.reg VF == 0) = true ∧
    holdsNext (exec (.rand 1 0xFF) { idle with rnd := 0x3C }) (fun t => t.reg 1 == 0x3C) = true := by decide +kernel

/-! ## Index register and memory -/

/-- M1. -/
theorem test_loadIndex : holdsNext (exec (.loadIndex 0x123) { idle with I := 0xFFFF }) (fun t => t.I == 0x0123) = true := by
  decide +kernel

/-- M4 and M4b. -/
theorem test_addIndex :
    holdsNext (exec (.addIndex 1) { v12 2 0 with I := 0x0FFF }) (fun t => t.I == 0x1001 && t.reg VF == 0) = true ∧
    holdsNext (exec (.addIndex 1) { v12 2 0 with I := 0xFFFF }) (fun t => t.I == 0x0001) = true := by decide +kernel

/-- M3b and M3e. -/
theorem test_fontAddr :
    holdsNext (exec (.fontAddr 1) (v12 2 0))
      (fun t => t.I == 0x00A && (List.range 5).map (fun k => t.byteAt (0xA + k)) == [0xF0, 0x90, 0x90, 0x90, 0xF0]) = true ∧
    holdsNext (exec (.fontAddr 1) (v12 0xFF 0)) (fun t => t.I == 0x04FB) = true := by decide +kernel

/-- M5 and, at the last place that fits, M6. -/
theorem test_bcd :
    holdsNext (exec (.bcd 1) { v12 254 0 with I := 0x300 })
      (fun t => t.byteAt 0x300 == 2 && t.byteAt 0x301 == 5 && t.byteAt 0x302 == 4 && t.I == 0x300) = true ∧
    holdsNext (exec (.bcd 1) { v12 99 0 with I := 0xFFD })
      (fun t => t.byteAt 0xFFD == 0 && t.byteAt 0xFFE == 9 && t.byteAt 0xFFF == 9 && t.on) = true := by decide +kernel

/-- M6b. -/
theorem test_bcd_bounds : holdsNext (step (at_ 0x200 0xF033 { withRegs idle [(0, 123)] with I := 0xFFE }))
    (fun t => !t.on && t.haltCause == .indexBounds && t.haltOpcode == 0xF033 && t.haltAddr == 0x200 && t.pc == 0x202 &&
      t.cycles == 0 && t.byteAt 0xFFE == 0 && t.byteAt 0xFFF == 0) = true := by decide +kernel

/-- The registers of M7. -/
def m7 : State := withRegs { idle with I := 0x400 } [(0, 0x11), (1, 0x22), (2, 0x33), (3, 0x44), (4, 0x55)]

/-- M7, first half, and M7b. -/
theorem test_storeRegs :
    holdsNext (exec (.storeRegs 3) m7) (fun t =>
      (List.range 5).map (fun k => t.byteAt (0x400 + k)) == [0x11, 0x22, 0x33, 0x44, 0] && t.I == 0x400) = true ∧
    holdsNext (exec (.storeRegs 0) { withRegs idle [(0, 0xAB)] with I := 0xFFF })
      (fun t => t.byteAt 0xFFF == 0xAB && t.on) = true := by decide +kernel

/-- M7c. -/
theorem test_storeRegs_bounds : holdsNext (step (at_ 0x200 0xF155 { withRegs idle [(0, 0xAB)] with I := 0xFFF }))
    (fun t => t.haltCause == .indexBounds && t.haltOpcode == 0xF155 && t.haltAddr == 0x200 && t.byteAt 0xFFF == 0) = true := by
  decide +kernel

/-- M7d: the font into all sixteen registers. -/
theorem test_loadRegs : holdsNext (exec (.loadRegs VF) { idle with I := 0x00A })
    (fun t => t.V.toList == [0xF0, 0x90, 0x90, 0x90, 0xF0] ++ [0x20, 0x60, 0x20, 0x20, 0x70] ++
      [0xF0, 0x10, 0xF0, 0x80, 0xF0] ++ [0xF0] && t.I == 0x00A) = true := by decide +kernel

/-- M8. -/
theorem test_loadRegs_bounds : holdsNext (exec (.loadRegs 3) { m7 with I := 0x1001 })
    (fun t => t.haltCause == .indexBounds && t.V == m7.V) = true := by decide +kernel

/-! ## Display -/

/-- `idle` with sprite bytes at 0x300, I there, and the position in V0 (column), V1 (row). -/
def sprite (bs : List Byte) (col row : Byte) : State := withRegs (withBytes { idle with I := 0x300 } 0x300 bs) [(0, col), (1, row)]

/-- G16, from a screen with one cell lit. -/
theorem test_clearScreen : holdsNext (exec .clearScreen (litRow0 [0] idle))
    (fun t => cells false [(0, 0), (0, 63), (31, 0), (31, 63)] t && t.needsRedraw && t.reg VF == 0) = true := by
  decide +kernel

/-- The example of R222; G11: one cell cleared, one lit. -/
theorem test_draw :
    holdsNext (exec (.draw 0 1 2) (sprite [0xC0, 0x81] 2 1)) (fun t =>
      cells true [(1, 2), (1, 3), (2, 2), (2, 9)] t && cells false [(1, 1), (1, 4), (2, 3), (2, 8), (2, 10), (3, 2)] t &&
        t.reg VF == 0 && t.needsRedraw) = true ∧
    holdsNext (exec (.draw 0 1 1) (litRow0 [0] (sprite [0xC0] 0 0)))
      (fun t => cells false [(0, 0)] t && cells true [(0, 1)] t && t.reg VF == 1) = true := by decide +kernel

/-- G5, G9 and G15: clipping, no rows, and the column in VF. -/
theorem test_draw_corners :
    holdsNext (exec (.draw 0 1 1) (sprite [0xFF] 60 31))
      (fun t => cells true [(31, 60), (31, 63)] t && cells false [(31, 59), (0, 0), (31, 0), (0, 60)] t &&
        t.reg VF == 0) = true ∧
    holdsNext (exec (.draw 0 1 0) { litRow0 [0] (withRegs idle [(VF, 1)]) with I := 0xFFFF })
      (fun t => cells true [(0, 0)] t && t.reg VF == 0 && t.needsRedraw && t.on) = true ∧
    holdsNext (exec (.draw VF 1 1) (withRegs (sprite [0x80] 0 0) [(VF, 3)]))
      (fun t => cells true [(0, 3)] t && t.reg VF == 0) = true := by decide +kernel

/-- The linear indices of R222's example and of program P3: 66, 67, 130, 137. -/
theorem test_hostFramebuffer :
    [cellIndex 1 2, cellIndex 1 3, cellIndex 2 2, cellIndex 2 9] = [66, 67, 130, 137] ∧
    (hostFramebuffer (litRow0 [1] idle)).get 1 = 1 ∧ (hostFramebuffer (litRow0 [1] idle)).get 64 = 0 := by
  rw [hostFramebuffer_get, hostFramebuffer_get]
  decide +kernel

/-! ## Keypad and timers -/

/-- K2 and K5. -/
theorem test_skipKey :
    holdsNext (step (at_ 0x200 0xE29E (withRegs idle [(2, 0x05)]))) (fun t => t.pc == 0x202) = true ∧
    holdsNext (step (at_ 0x200 0xE29E (withRegs (pressing [5]) [(2, 0x15)]))) (fun t => t.pc == 0x204) = true := by
  decide +kernel

/-- K4 and K6. -/
theorem test_skipNotkey :
    holdsNext (step (at_ 0x200 0xE2A1 (withRegs (pressing [5]) [(2, 0x05)]))) (fun t => t.pc == 0x202) = true ∧
    holdsNext (step (at_ 0x200 0xE2A1 (withRegs idle [(2, 0xF0)]))) (fun t => t.pc == 0x204) = true := by decide +kernel

/-- K7 and K8. -/
theorem test_waitKey :
    holdsNext (step (at_ 0x210 0xF30A (withRegs idle [(3, 0x99)])))
      (fun t => t.pc == 0x210 && t.reg 3 == 0x99 && t.cycles == 1 && t.on) = true ∧
    holdsNext (step (at_ 0x210 0xF30A (pressing [0xB, 7]))) (fun t => t.pc == 0x212 && t.reg 3 == 7) = true := by
  decide +kernel

/-- K11 and K12. -/
theorem test_getDelay :
    holdsNext (step (at_ 0x200 0xF207 { idle with DT := 0x10 })) (fun t => t.DT == 0x0F && t.reg 2 == 0x0F) = true ∧
    holdsNext (step (at_ 0x200 0xF207 idle)) (fun t => t.DT == 0 && t.reg 2 == 0) = true := by decide +kernel

/-- K13. -/
theorem test_setDelay : holdsNext (step (at_ 0x200 0xF015 { withRegs idle [(0, 3)] with DT := 9 })) (fun t => t.DT == 3) = true := by
  decide +kernel

/-- K16: the step's tone is the old one, the next step's the new one. -/
theorem test_setSound : tone (at_ 0x200 0xF118 { v12 0 0 with ST := 5 }) = true ∧
    holdsNext (step (at_ 0x200 0xF118 { v12 0 0 with ST := 5 })) (fun t => t.ST == 0 && !tone t) = true := by decide +kernel

/-! ## The step, the halts and the host -/

/-- X1 and X1b: the fetch bound. -/
theorem test_fetch_bound :
    holdsNext (step { withBytes idle 0xFFE [0x12, 0x00] with pc := 0xFFE, DT := 2 })
      (fun t => !t.on && t.haltCause == .pcBounds && t.haltOpcode == 0 && t.haltAddr == 0xFFE && t.pc == 0xFFE &&
        t.DT == 1 && t.cycles == 0) = true ∧
    holdsNext (step (at_ 0xFFD 0x1200 idle)) (fun t => t.pc == 0x200 && t.on) = true := by decide +kernel

/-- X3. -/
theorem test_decodeError : holdsNext (step (at_ 0x200 0x5121 (v12 7 7)))
    (fun t => !t.on && t.haltCause == .decodeError && t.haltOpcode == 0x5121 && t.haltAddr == 0x200 && t.pc == 0x202 &&
      t.cycles == 0 && t.V == (v12 7 7).V) = true := by decide +kernel

/-- X12 and X13: the reset state ignores a step until it is started. -/
theorem test_reset_step : step State.reset = .next State.reset ∧ hostAct .start State.reset = .next idle :=
  ⟨coreStep_stopped _ _ rfl, rfl⟩

/-- X15, from a RUNNING state with registers, I, pc, the screen and the count of input bytes changed. -/
theorem test_init_running : hostAct .init { litRow0 [3] m7 with pc := 0x20A, DT := 5, draws := 7 } =
    .next { State.reset with draws := 7 } := rfl

/-- P8: tones of the first six steps of a loaded program. -/
theorem test_session_tones :
    sessionTones ([.init, .load [0x61, 0x02, 0xF1, 0x18], .start] ++ List.replicate 6 (.step 0)) State.reset =
      [false, false, true, true, false, false] := by decide +kernel

/-- `withFetchWord` puts the instruction in front of the next step, from reset and from a pc past the bound. -/
theorem test_withFetchWord : Runs (State.reset.withFetchWord 16 0xD12F) (.draw 1 2 15) ∧
    Runs (({ State.reset with pc := 0x1000 }).withFetchWord 16 0x00EE) .ret :=
  ⟨⟨0xD12F, by decide +kernel⟩, ⟨0x00EE, by decide +kernel⟩⟩

/-! ## Witnesses: the hypotheses of every obligation that has any are met, clause by clause, at the ends of their ranges -/

/-- A state fetches one word only, so it runs one instruction only. -/
theorem runs_unique {s : State} {i j : Instr} (hi : Runs s i) (hj : Runs s j) : i = j := by
  obtain ⟨w, ⟨-, -, hw⟩, hdw⟩ := hi
  obtain ⟨v, ⟨-, -, hv⟩, hdv⟩ := hj
  obtain rfl : w = v := BitVec.eq_of_toNat_eq (hw.trans hv.symm)
  exact Option.some.inj (hdw.symm.trans hdv)

/-- A next state satisfying a check, from the evaluated check. -/
theorem next_of {r : Result} {p : State → Bool} (h : holdsNext r p = true) : ∃ t, r = .next t ∧ p t = true :=
  holdsNext_iff.1 h

theorem witness_DecodingAnEncodedInstructionGivesItBack :
    (Instr.legacyCall 0x0E1).WellFormed ∧ (Instr.draw 15 15 15).WellFormed ∧ Instr.clearScreen.WellFormed := by decide

theorem witness_EveryLegalWordIsItsInstructionsOpcode :
    decode 0x0000 = some (.legacyCall 0) ∧ decode 0xFF65 = some (.loadRegs 15) := by decide

theorem witness_StoppedEngineIgnoresAStep : State.reset.on = false := rfl

/-- At both ends of the fetch range. -/
theorem witness_StepRunsTheDecodedInstruction :
    (Fetches (at_ 0x000 0x00EE idle) 0x00EE ∧ decode 0x00EE = some .ret) ∧
    (Fetches (at_ 0xFFD 0xFF65 idle) 0xFF65 ∧ decode 0xFF65 = some (.loadRegs 15)) := by decide +kernel

theorem witness_IllegalWordHaltsWithDecodeError :
    (Fetches (at_ 0x000 0x5121 idle) 0x5121 ∧ decode 0x5121 = none) ∧
    (Fetches (at_ 0xFFD 0xF0FF idle) 0xF0FF ∧ decode 0xF0FF = none) := by decide +kernel

/-- The first pc past the bound, and the last of 16 bits. -/
theorem witness_FetchPastTheBoundHaltsWithPcBounds :
    ({ idle with pc := 0xFFE }.on = true ∧ 0xFFF < ({ idle with pc := 0xFFE } : State).pc.toNat + 2) ∧
    ({ idle with pc := 0xFFFF }.on = true ∧ 0xFFF < ({ idle with pc := 0xFFFF } : State).pc.toNat + 2) := by decide

/-- With a tick that stops at 0, with FX15 and with FX18. -/
theorem witness_EveryStepTicksBothTimers :
    (∃ t, step { idle with DT := 1 } = .next t ∧ (t.DT == 0 && t.ST == 0) = true) ∧
    (∃ t, step (at_ 0x200 0xF115 (v12 9 0)) = .next t ∧ (t.DT == 9) = true) ∧
    (∃ t, step (at_ 0x200 0xF118 (v12 9 0)) = .next t ∧ (t.ST == 9) = true) :=
  ⟨next_of (by decide +kernel), next_of (by decide +kernel), next_of (by decide +kernel)⟩

/-- A completed and a halting step. -/
theorem witness_OnlyCompletedStepsAreCounted :
    (∃ t, step idle = .next t ∧ t.on = true) ∧ (∃ t, step (at_ 0x200 0x00EE idle) = .next t ∧ (!t.on) = true) :=
  ⟨next_of (by decide +kernel), next_of (by decide +kernel)⟩

/-- The largest pc of the invariant is reached from a state that meets it. -/
theorem witness_EveryStepKeepsTheInvariant :
    (at_ 0xFFD 0xBFFF (withRegs idle [(0, 0xFF)])).Inv ∧
    ∃ t, step (at_ 0xFFD 0xBFFF (withRegs idle [(0, 0xFF)])) = .next t ∧ (t.pc == 0x10FE) = true :=
  ⟨by decide +kernel, next_of (by decide +kernel)⟩

/-- Each cause of R269. -/
theorem witness_AHaltingStepLeavesOnlyItsTrace :
    (∃ t, step { idle with pc := 0xFFE } = .next t ∧ (!t.on && t.haltCause == .pcBounds) = true) ∧
    (∃ t, step (at_ 0x200 0x8008 idle) = .next t ∧ (!t.on && t.haltCause == .decodeError) = true) ∧
    (∃ t, step (at_ 0x200 0x00EE idle) = .next t ∧ (!t.on && t.haltCause == .stackUnderflow) = true) ∧
    (∃ t, step (at_ 0x200 0x2300 { idle with sp := 16 }) = .next t ∧ (!t.on && t.haltCause == .stackOverflow) = true) ∧
    (∃ t, step (at_ 0x200 0xD012 { idle with I := 0xFFF }) = .next t ∧ (!t.on && t.haltCause == .indexBounds) = true) ∧
    (∃ t, step (at_ 0x200 0xF033 { idle with I := 0xFFE }) = .next t ∧ (!t.on && t.haltCause == .indexBounds) = true) ∧
    (∃ t, step (at_ 0x200 0xF155 { idle with I := 0xFFF }) = .next t ∧ (!t.on && t.haltCause == .indexBounds) = true) ∧
    (∃ t, step (at_ 0x200 0xF165 { idle with I := 0xFFF }) = .next t ∧ (!t.on && t.haltCause == .indexBounds) = true) := by
  refine ⟨?_, ?_, ?_, ?_, ?_, ?_, ?_, ?_⟩ <;> exact next_of (by decide +kernel)

/-- Steps that write memory, the stack, the display, I, and set needsRedraw. -/
theorem witness_EachStoreIsWrittenOnlyByItsInstructions :
    (∃ t, step (at_ 0x200 0xF033 { v12 0 0 with V := (v12 0 0).V.set 0 7, I := 0xFFD }) = .next t ∧ (t.byteAt 0xFFF == 7) = true) ∧
    (∃ t, step (at_ 0x200 0x2300 idle) = .next t ∧ (t.sp == 1 && t.stackAt 0 == 0x202) = true) ∧
    (∃ t, step (at_ 0x200 0xD011 (sprite [0x80] 0 0)) = .next t ∧ (t.pixel 0 0 && t.needsRedraw) = true) ∧
    (∃ t, step (at_ 0x200 0xAFFF { idle with needsRedraw := true }) = .next t ∧ (t.I == 0xFFF && t.needsRedraw) = true) := by
  refine ⟨?_, ?_, ?_, ?_⟩ <;> exact next_of (by decide +kernel)

/-- VF written as a flag, and as an ordinary destination. -/
theorem witness_OnlyFlagWritersTouchVFOnTheSide :
    (∃ t, step (at_ 0x200 0x8124 (v12 0xFF 1)) = .next t ∧ (t.reg VF == 1) = true) ∧
    (∃ t, step (at_ 0x200 0x6F07 idle) = .next t ∧ (t.reg VF == 7) = true) ∧
    (∃ t, step (at_ 0x200 0xFF65 { idle with I := 0x00A }) = .next t ∧ (t.reg VF == 0xF0) = true) := by
  refine ⟨?_, ?_, ?_⟩ <;> exact next_of (by decide +kernel)

/-- A step of the no-operation 0x0000. -/
theorem witness_OnlyRandReadsTheInputByte :
    idle.on = true ∧ (¬ ∃ x nn, Runs idle (.rand x nn)) ∧ ∃ t, coreStep 0xA5 idle = .next t ∧ (t.rnd == 0xA5) = true := by
  refine ⟨rfl, ?_, next_of (by decide +kernel)⟩
  rintro ⟨x, nn, h⟩
  exact nomatch runs_unique h ⟨0x0000, by decide +kernel, (by decide : decode 0x0000 = some (.legacyCall 0))⟩

/-- Two steps over zero-filled memory, with the timers at 1 and at 2. -/
def tickingRun (k : Nat) : State :=
  match session (List.replicate k (.step (Config.rndInput k))) { idle with DT := 1, ST := 2 } with
  | .next t => { t with rnd := if k = 0 then 0 else Config.rndInput (k - 1) }
  | .fault _ => idle
  | .refused _ => idle

theorem witness_TimersCountStepsDownToZero :
    (∀ k < 2, (tickingRun k).on = true ∧ step (tickingRun k) = .next (tickingRun (k + 1))) ∧
    (∀ k < 2, ¬ ∃ x, Runs (tickingRun k) (.setDelay x)) ∧ (∀ k < 2, ¬ ∃ x, Runs (tickingRun k) (.setSound x)) := by
  have hn : ∀ k < 2, Runs (tickingRun k) (.legacyCall 0) := fun k hk => ⟨0x0000, by
    match k, hk with
    | 0, _ => exact ⟨by decide +kernel, by decide⟩
    | 1, _ => exact ⟨by decide +kernel, by decide⟩⟩
  refine ⟨fun k hk => ?_, fun k hk => ?_, fun k hk => ?_⟩
  · match k, hk with
    | 0, _ => exact ⟨rfl, rfl⟩
    | 1, _ => exact ⟨rfl, rfl⟩
  · rintro ⟨x, h⟩; exact nomatch runs_unique h (hn k hk)
  · rintro ⟨x, h⟩; exact nomatch runs_unique h (hn k hk)

/-- The words next to 00E0 and 00EE. -/
theorem witness_LegacyCallDoesNothing :
    ((0x0E1 : Addr12) ≠ 0x0E0 ∧ (0x0E1 : Addr12) ≠ 0x0EE) ∧ Runs (at_ 0xFFD 0x00EF idle) (.legacyCall 0x0EF) :=
  ⟨by decide, 0x00EF, by decide +kernel⟩

/-- One entry, sixteen entries, none. -/
theorem witness_ReturnPopsThePc :
    ({ idle with sp := 1 } : State).sp.val = (0 : Fin 16).val + 1 ∧ ({ idle with sp := 16 } : State).sp.val = (15 : Fin 16).val + 1 ∧
    ({ idle with sp := 16 } : State).Inv ∧ idle.sp = 0 := by decide +kernel

/-- The jump at both ends of the fetch range, and FX0A with no key pressed. -/
theorem witness_AJumpToItselfRunsForever : Runs (at_ 0x200 0x1200 idle) (.jump 0x200) ∧
    (0x200 : Addr12).toNat = (at_ 0x200 0x1200 idle).pc.toNat ∧ Runs (at_ 0xFFD 0x1FFD idle) (.jump 0xFFD) ∧
    (0xFFD : Addr12).toNat = (at_ 0xFFD 0x1FFD idle).pc.toNat ∧ Runs (at_ 0xFFD 0xFF0A idle) (.waitKey 15) ∧
    ∀ k, (at_ 0xFFD 0xFF0A idle).keyDown k = false :=
  ⟨⟨0x1200, by decide +kernel⟩, by decide +kernel, ⟨0x1FFD, by decide +kernel⟩, by decide +kernel,
    ⟨0xFF0A, by decide +kernel⟩, by decide +kernel⟩

/-- The first push, the sixteenth, and a full stack. -/
theorem witness_CallPushesThePcAndJumps :
    idle.sp.val = (0 : Fin 16).val ∧ ({ idle with sp := 15 } : State).sp.val = (15 : Fin 16).val ∧
    ({ idle with sp := 16 } : State).sp = 16 := by decide

theorem witness_ReturnUndoesACall :
    idle.sp.val = (0 : Fin 16).val ∧ ({ idle with sp := 15 } : State).sp.val = (15 : Fin 16).val := by decide

theorem witness_RegisterSkipsCompareTheRegisters : (0 < 1 ∧ 1 < 16) ∧ (0 < 15 ∧ 15 < 16) := by decide

/-- The side condition x ≠ F of the flag writers' clauses is met. -/
theorem witness_flag_writers : (0 : Reg) ≠ VF ∧ (14 : Reg) ≠ VF := by decide

theorem witness_RandMasksTheInputByte : Runs (at_ 0xFFD 0xCFFF idle) (.rand 15 0xFF) := ⟨0xCFFF, by decide +kernel⟩

/-- Memory as `init` leaves it, with V[x] at 1, 2 and 17. -/
theorem witness_FontAddrMultipliesByFive :
    SameMem State.reset (v12 2 17) ∧ ((v12 1 0).reg 1).toNat < 2 ∧ 2 ≤ ((v12 2 17).reg 1).toNat ∧
    ((v12 2 17).reg 2).toNat ≤ 17 := ⟨fun _ => rfl, by decide +kernel⟩

theorem witness_BcdStoresThreeDigits :
    idle.I.toNat + 2 ≤ 0xFFF ∧ ({ idle with I := 0xFFD } : State).I.toNat + 2 ≤ 0xFFF := by decide

theorem witness_StoreRegsWritesMemoryFromI :
    ({ idle with I := 0xFFF } : State).I.toNat + (0 : Reg).val ≤ 0xFFF ∧
    ({ idle with I := 0xFF0 } : State).I.toNat + (15 : Reg).val ≤ 0xFFF := by decide

/-- The same hypotheses. -/
theorem witness_LoadRegsReadsMemoryFromI :
    ({ idle with I := 0xFFF } : State).I.toNat + (0 : Reg).val ≤ 0xFFF ∧
    ({ idle with I := 0xFF0 } : State).I.toNat + (15 : Reg).val ≤ 0xFFF := by decide

/-- Stored from the highest index that fits, loaded back with every register cleared. -/
theorem witness_LoadRegsUndoesStoreRegs : ∃ t u : State, ({ m7 with I := 0xFFC } : State).I.toNat + (3 : Reg).val ≤ 0xFFF ∧
    exec (.storeRegs 3) { m7 with I := 0xFFC } = .next t ∧ SameMem t u ∧ u.I = 0xFFC ∧ u.reg 0 = 0 := by
  obtain ⟨t, ht, hI⟩ := next_of (show holdsNext (exec (.storeRegs 3) { m7 with I := 0xFFC }) (fun t => t.I == 0xFFC) = true by
    decide +kernel)
  exact ⟨t, { t with V := idle.V }, by decide, ht, fun _ => rfl, of_decide_eq_true hI, rfl⟩

/-- Each clause at the first index that overruns, and with the most bytes. -/
theorem witness_IndexPastMemoryHaltsWithNoPartialEffect :
    (0 < (1 : Nibble).val ∧ 0xFFF < ({ idle with I := 0x1000 } : State).I.toNat + ((1 : Nibble).val - 1)) ∧
    (0 < (15 : Nibble).val ∧ 0xFFF < ({ idle with I := 0xFF2 } : State).I.toNat + ((15 : Nibble).val - 1)) ∧
    0xFFF < ({ idle with I := 0xFFE } : State).I.toNat + 2 ∧
    0xFFF < ({ idle with I := 0x1000 } : State).I.toNat + (0 : Reg).val ∧
    0xFFF < ({ idle with I := 0xFF1 } : State).I.toNat + (15 : Reg).val := by decide

/-- I just below the last address a fetch may have, and the word 0x1234 in V1, V2. -/
def patcher : State := { v12 0x12 0x34 with pc := 0xFFD, I := 0xFFC }

/-- Each clause at the last pc: both bytes of the next opcode stored, and only its first. -/
theorem witness_TheNextFetchSeesAStore :
    (patcher.I.toNat + (2 : Reg).val ≤ 0xFFF ∧ patcher.I.toNat + 2 ≤ 0xFFF ∧ patcher.on = true ∧ patcher.pc.toNat ≤ 0xFFD) ∧
    (Runs (at_ 0xFFB 0xF255 { patcher with I := 0xFFD }) (.storeRegs 2) ∧ 0xFFB + 2 ≤ 0xFFD ∧ 0xFFD + (2 : Reg).val ≤ 0xFFF) ∧
    (Runs (at_ 0xFFB 0xF133 { patcher with I := 0xFFB }) (.bcd 1) ∧ 0xFFB + 2 ≤ 0xFFF) ∧
    wordAfterStore patcher 0xFFC [0, 0x12, 0x34] 0xFFD = 0x1234 ∧ wordAfterStore patcher 0xFFB [0, 1, 8] 0xFFD = 0x0800 :=
  ⟨by decide +kernel, ⟨⟨0xF255, by decide +kernel⟩, by decide, by decide⟩, ⟨⟨0xF133, by decide +kernel⟩, by decide⟩,
    by decide +kernel, by decide +kernel⟩

/-- No row with the largest index, fifteen rows with the largest that fits; a covered cell that is lit, and a sprite that
covers none (R222: a zero byte). -/
theorem witness_DrawFlipsExactlyTheSpritesCells :
    ((0 : Nibble).val = 0 ∧ ({ idle with I := 0xFFFF } : State).I.toNat = 0xFFFF) ∧
    ({ idle with I := 0xFF1 } : State).I.toNat + ((15 : Nibble).val - 1) ≤ 0xFFF ∧
    (SpriteCovers (litRow0 [7] (sprite [0x01] 0 0)) 0 1 1 0 7 ∧ (litRow0 [7] (sprite [0x01] 0 0)).pixel 0 7 = true) ∧
    ¬ SpriteCovers (sprite [0x80] 63 0) 0 1 1 0 0 := by
  unfold SpriteCovers
  decide +kernel

/-- Two draws that both answer, with x and y not F. -/
theorem witness_DrawingTwiceRestoresTheScreen : ∃ t u : State, (0 : Reg) ≠ VF ∧ (1 : Reg) ≠ VF ∧
    (sprite [0x80] 63 31).I.toNat + ((1 : Nibble).val - 1) ≤ 0xFFF ∧
    exec (.draw 0 1 1) (sprite [0x80] 63 31) = .next t ∧ exec (.draw 0 1 1) t = .next u := by
  obtain ⟨t, ht, h2⟩ := next_of (show holdsNext (exec (.draw 0 1 1) (sprite [0x80] 63 31))
    (fun t => holdsNext (exec (.draw 0 1 1) t) (fun u => u.reg VF == 1)) = true by decide +kernel)
  obtain ⟨u, hu, -⟩ := next_of h2
  exact ⟨t, u, by decide, by decide, by decide +kernel, ht, hu⟩

theorem witness_KeySkipsTestTheLowNibblesKey :
    (5 : Fin 16).val = ((v12 0x15 0).reg 1).toNat % 16 ∧ (15 : Fin 16).val = ((v12 0xFF 0).reg 1).toNat % 16 := by
  decide +kernel

/-- Key 0 the least, key F the least, and no key. -/
theorem witness_WaitKeyTakesTheLeastKeyOrRepeats :
    ((pressing [0, 3]).keyDown 0 = true ∧ ∀ j : Fin 16, j < 0 → (pressing [0, 3]).keyDown j = false) ∧
    ((pressing [15]).keyDown 15 = true ∧ ∀ j : Fin 16, j < 15 → (pressing [15]).keyDown j = false) ∧
    ((∀ k, (at_ 0x210 0xF30A idle).keyDown k = false) ∧ Runs (at_ 0x210 0xF30A idle) (.waitKey 3)) :=
  ⟨by decide +kernel, by decide +kernel, by decide +kernel, 0xF30A, by decide +kernel⟩

theorem witness_GetDelayReadsTheTickedTimer : Runs (at_ 0xFFD 0xFF07 idle) (.getDelay 15) := ⟨0xFF07, by decide +kernel⟩

theorem witness_SetDelayWritesTheTimer : Runs (at_ 0xFFD 0xFF15 idle) (.setDelay 15) := ⟨0xFF15, by decide +kernel⟩

theorem witness_SetSoundWritesTheTimer : Runs (at_ 0xFFC 0xFF18 idle) (.setSound 15) ∧
    ∃ t, step (at_ 0xFFC 0xFF18 idle) = .next t ∧ t.on = true :=
  ⟨⟨0xFF18, by decide +kernel⟩, next_of (by decide +kernel)⟩

/-- The longest image, the shortest that is refused, and the states that refuse one. -/
theorem witness_LoadCopiesTheImageBeforeARun :
    (State.reset.on = false ∧ State.reset.haltCause = .none ∧ (List.replicate 3584 (0 : Byte)).length ≤ 3584) ∧
    idle.on = true ∧ ({ State.reset with haltCause := .stopRequest } : State).haltCause ≠ .none ∧
    3584 < (List.replicate 3585 (0 : Byte)).length := by
  simp only [List.length_replicate]
  decide

theorem witness_StartAndStopFollowTheRunStates :
    (State.reset.on = false ∧ State.reset.haltCause = .none) ∧ idle.on = true ∧
    (({ State.reset with haltCause := .decodeError } : State).on = false ∧
      ({ State.reset with haltCause := .decodeError } : State).haltCause ≠ .none) := by decide

/-- A halted engine. -/
def halted : State := { State.reset with haltCause := .decodeError, needsRedraw := true }

/-- A session of every command but `init`. -/
theorem witness_OnlyInitLeavesATerminalState : halted.Terminal ∧
    HostCommand.init ∉ [.load [0x12], .start, .stop, .step 0, .keyWrite 15 1, .redrawAck] ∧
    ∃ t, session [.load [0x12], .start, .stop, .step 0, .keyWrite 15 1, .redrawAck] halted = .next t ∧
      (t.keyDown 15 && !t.needsRedraw && t.haltCause == .decodeError && t.byteAt 0x200 == 0) = true :=
  ⟨by decide, by decide, next_of (by decide +kernel)⟩

/-- A session that loads, runs and stops. -/
theorem witness_EverySessionKeepsTheInvariant : State.reset.Inv ∧
    ∃ t, session [.load [0x12, 0x00], .start, .step 0xFF, .keyWrite 0 1, .stop, .init] State.reset = .next t ∧
      (!t.on && t.haltCause == .none && t.draws == 1) = true :=
  ⟨by decide +kernel, next_of (by decide +kernel)⟩

end Sys2Proof.Tests
end

section
/-! PROOF. What executing an instruction and a whole step can do, said once: `exec_effect` for the 35 meanings,
`coreStep_effect` for the step around them. Claims about every step are case splits on these two relations. -/

namespace Sys2Proof.Machine

/-! ## What an instruction can do -/

/-- Why an instruction halts: the check that comes before any effect fails (R263 to R265). -/
inductive HaltReason (s : State) : Instr → HaltCause → Prop
  | emptyStack : s.sp = 0 → HaltReason s .ret .stackUnderflow
  | fullStack (nnn : Addr12) : s.sp = 16 → HaltReason s (.call nnn) .stackOverflow
  | drawOverruns (x y : Reg) (n : Nibble) : 0 < n.val → 0xFFF < s.I.toNat + (n.val - 1) →
      HaltReason s (.draw x y n) .indexBounds
  | bcdOverruns (x : Reg) : 0xFFF < s.I.toNat + 2 → HaltReason s (.bcd x) .indexBounds
  | storeOverruns (x : Reg) : 0xFFF < s.I.toNat + x.val → HaltReason s (.storeRegs x) .indexBounds
  | loadOverruns (x : Reg) : 0xFFF < s.I.toNat + x.val → HaltReason s (.loadRegs x) .indexBounds

/-- Where an instruction that writes nothing but pc leaves it: as it was, past a skipped instruction (R155), back on
FX0A (R244), or at a target (R152, R154). Which instruction takes which way is the claim about that instruction. -/
inductive NextPc (s : State) : Word → Prop
  | stays : NextPc s s.pc
  | skips : NextPc s (s.pc + 2)
  | repeats : NextPc s (s.pc - 2)
  | jumps (nnn : Addr12) : NextPc s (target nnn)
  | jumpsBy (nnn : Addr12) : NextPc s (targetOffset nnn s)

/-- The instructions whose one write is to their ordinary destination V[x]. -/
inductive RegWriter (x : Reg) : Instr → Prop
  | loadImm (nn : Byte) : RegWriter x (.loadImm x nn)
  | addImm (nn : Byte) : RegWriter x (.addImm x nn)
  | move (y : Reg) : RegWriter x (.move x y)
  | or (y : Reg) : RegWriter x (.or x y)
  | and (y : Reg) : RegWriter x (.and x y)
  | xor (y : Reg) : RegWriter x (.xor x y)
  | rand (nn : Byte) : RegWriter x (.rand x nn)
  | getDelay : RegWriter x (.getDelay x)
  | waitKey : RegWriter x (.waitKey x)

/-- The instructions that write VF and then V[x] (R170). -/
inductive FlagWriter (x : Reg) : Instr → Prop
  | add (y : Reg) : FlagWriter x (.add x y)
  | sub (y : Reg) : FlagWriter x (.sub x y)
  | shr (y : Reg) : FlagWriter x (.shr x y)
  | subn (y : Reg) : FlagWriter x (.subn x y)
  | shl (y : Reg) : FlagWriter x (.shl x y)

/-- Everything the instruction `i` can answer from `s`, by the part of the state it writes (R20, column "written by"). -/
inductive Effect (s : State) : Instr → State → Prop
  | halts {i : Instr} {c : HaltCause} : HaltReason s i c → Effect s i (raiseIn c i s)
  | movesPc (i : Instr) {w : Word} : NextPc s w → Effect s i (s.setPc w)
  | pops (h : 0 < s.sp.val) : Effect s .ret
      { s with sp := ⟨s.sp.val - 1, by omega⟩, pc := s.stackAt ⟨s.sp.val - 1, by omega⟩ }
  | pushes (nnn : Addr12) (h : s.sp.val < 16) : Effect s (.call nnn)
      { s with stack := s.stack.set s.sp.val s.pc h, sp := ⟨s.sp.val + 1, by omega⟩, pc := target nnn }
  | writesReg {i : Instr} {x : Reg} (v : Byte) : RegWriter x i → Effect s i (s.setReg x v)
  | writesFlag {i : Instr} {x : Reg} (flag v : Byte) : FlagWriter x i → Effect s i (setFlagThenReg x flag v s)
  | loadsRegs (x : Reg) (bs : List Byte) : bs.length = x.val + 1 → Effect s (.loadRegs x) (s.setRegs bs)
  | storesDigits (x : Reg) {m : Memory} : (s.mem.wf → m.wf) → Effect s (.bcd x) { s with mem := m }
  | storesRegs (x : Reg) {m : Memory} : (s.mem.wf → m.wf) → Effect s (.storeRegs x) { s with mem := m }
  | loadsIndex (nnn : Addr12) : Effect s (.loadIndex nnn) (s.setIndex (target nnn))
  | addsIndex (x : Reg) : Effect s (.addIndex x) (s.setIndex (indexSum s x))
  | pointsAtGlyph (x : Reg) : Effect s (.fontAddr x) (s.setIndex (fontOffset (s.reg x)))
  | setsDelay (x : Reg) : Effect s (.setDelay x) (s.setDelayTimer (s.reg x))
  | setsSound (x : Reg) : Effect s (.setSound x) (s.setSoundTimer (s.reg x))
  | clears : Effect s .clearScreen (s.setDisplay Framebuffer.blank)
  | draws (x y : Reg) (n : Nibble) (bytes : List Byte) : Effect s (.draw x y n) (drawAt x y s bytes)

/-- A skip moves pc and does nothing else (R155). -/
theorem effect_skipIf (i : Instr) (c : Bool) (s : State) : Effect s i (skipIf c s) := by
  cases c with
  | false => exact .movesPc i .stays
  | true => exact .movesPc i .skips

theorem execRet_effect (s : State) : ∃ t, execRet s = .next t ∧ Effect s .ret t := by
  rcases Nat.eq_zero_or_pos s.sp.val with h | h
  · have h0 : s.sp = 0 := Fin.ext h
    exact ⟨_, execRet_halts s h0, .halts (.emptyStack h0)⟩
  · exact ⟨_, execRet_pops s h, .pops h⟩

theorem execCall_effect (nnn : Addr12) (s : State) : ∃ t, execCall nnn s = .next t ∧ Effect s (.call nnn) t := by
  by_cases h : s.sp.val < 16
  · exact ⟨_, execCall_pushes s nnn h, .pushes nnn h⟩
  · have h16 : s.sp = 16 := Fin.ext (by have := s.sp.isLt; omega)
    exact ⟨_, execCall_halts s nnn h16, .halts (.fullStack nnn h16)⟩

theorem execWaitKey_effect (x : Reg) (s : State) : ∃ t, execWaitKey x s = .next t ∧ Effect s (.waitKey x) t := by
  unfold execWaitKey
  cases selectedKey Config.keySelect s with
  | none => exact ⟨_, rfl, .movesPc _ .repeats⟩
  | some k => exact ⟨_, rfl, .writesReg _ .waitKey⟩

theorem execDraw_effect (x y : Reg) (n : Nibble) (s : State) :
    ∃ t, execDraw x y n s = .next t ∧ Effect s (.draw x y n) t := by
  by_cases h : 0 < n.val ∧ 0xFFF < s.I.toNat + (n.val - 1)
  · exact ⟨_, execDraw_halts s x y n h.1 h.2, .halts (.drawOverruns x y n h.1 h.2)⟩
  · exact ⟨_, execDraw_draws s x y n (by omega), .draws x y n _⟩

theorem execBcd_effect (x : Reg) (s : State) : ∃ t, execBcd x s = .next t ∧ Effect s (.bcd x) t := by
  rcases Nat.lt_or_ge 0xFFF (s.I.toNat + 2) with h | h
  · exact ⟨_, execBcd_halts s x h, .halts (.bcdOverruns x h)⟩
  · obtain ⟨m, hm, hwf, -⟩ := storeBytes_next s.I.toNat (bcdDigits (s.reg x)) s
      (by rw [length_bcdDigits]; unfold Config.memLast; omega)
    exact ⟨_, (execBcd_stores s x h).trans hm, .storesDigits x hwf⟩

theorem execStoreRegs_effect (x : Reg) (s : State) : ∃ t, execStoreRegs x s = .next t ∧ Effect s (.storeRegs x) t := by
  rcases Nat.lt_or_ge 0xFFF (s.I.toNat + x.val) with h | h
  · exact ⟨_, execStoreRegs_halts s x h, .halts (.storeOverruns x h)⟩
  · obtain ⟨m, hm, hwf, -⟩ := storeBytes_next s.I.toNat (s.regsTo x) s
      (by rw [length_regsTo]; unfold Config.memLast; omega)
    exact ⟨_, (execStoreRegs_stores s x h).trans hm, .storesRegs x hwf⟩

theorem execLoadRegs_effect (x : Reg) (s : State) : ∃ t, execLoadRegs x s = .next t ∧ Effect s (.loadRegs x) t := by
  rcases Nat.lt_or_ge 0xFFF (s.I.toNat + x.val) with h | h
  · exact ⟨_, execLoadRegs_halts s x h, .halts (.loadOverruns x h)⟩
  · exact ⟨_, execLoadRegs_loads s x h, .loadsRegs x _ (by simp)⟩

/-- Every instruction answers a next state, from any state, and that state is one of its effects. -/
theorem exec_effect (i : Instr) (s : State) : ∃ t, exec i s = .next t ∧ Effect s i t := by
  cases i with
  | clearScreen => exact ⟨_, rfl, .clears⟩
  | ret => exact execRet_effect s
  | legacyCall _ => exact ⟨_, rfl, .movesPc _ .stays⟩
  | jump nnn => exact ⟨_, rfl, .movesPc _ (.jumps nnn)⟩
  | call nnn => exact execCall_effect nnn s
  | skipEqImm _ _ | skipNeqImm _ _ | skipEqReg _ _ | skipNeqReg _ _ | skipKey _ | skipNotkey _ =>
    exact ⟨_, rfl, effect_skipIf _ _ s⟩
  | loadImm _ nn => exact ⟨_, rfl, .writesReg _ (.loadImm nn)⟩
  | addImm _ nn => exact ⟨_, rfl, .writesReg _ (.addImm nn)⟩
  | move _ y => exact ⟨_, rfl, .writesReg _ (.move y)⟩
  | or _ y => exact ⟨_, rfl, .writesReg _ (.or y)⟩
  | and _ y => exact ⟨_, rfl, .writesReg _ (.and y)⟩
  | xor _ y => exact ⟨_, rfl, .writesReg _ (.xor y)⟩
  | add _ y => exact ⟨_, rfl, .writesFlag _ _ (.add y)⟩
  | sub _ y => exact ⟨_, rfl, .writesFlag _ _ (.sub y)⟩
  | shr _ y => exact ⟨_, rfl, .writesFlag _ _ (.shr y)⟩
  | subn _ y => exact ⟨_, rfl, .writesFlag _ _ (.subn y)⟩
  | shl _ y => exact ⟨_, rfl, .writesFlag _ _ (.shl y)⟩
  | loadIndex nnn => exact ⟨_, rfl, .loadsIndex nnn⟩
  | jumpOffset nnn => exact ⟨_, rfl, .movesPc _ (.jumpsBy nnn)⟩
  | rand _ nn => exact ⟨_, rfl, .writesReg _ (.rand nn)⟩
  | draw x y n => exact execDraw_effect x y n s
  | getDelay _ => exact ⟨_, rfl, .writesReg _ .getDelay⟩
  | waitKey x => exact execWaitKey_effect x s
  | setDelay x => exact ⟨_, rfl, .setsDelay x⟩
  | setSound x => exact ⟨_, rfl, .setsSound x⟩
  | addIndex x => exact ⟨_, rfl, .addsIndex x⟩
  | fontAddr x => exact ⟨_, rfl, .pointsAtGlyph x⟩
  | bcd x => exact execBcd_effect x s
  | storeRegs x => exact execStoreRegs_effect x s
  | loadRegs x => exact execLoadRegs_effect x s

theorem effect_of_exec {i : Instr} {s t : State} (h : exec i s = .next t) : Effect s i t := by
  obtain ⟨u, hu, he⟩ := exec_effect i s
  rw [hu] at h
  exact (Host.Outcome.next.inj h) ▸ he

/-! ## What a step can do -/

/-- Everything a step with the input byte `rnd` can answer from `s`: STOPPED (R121), the fetch refused (R261), an illegal
word (R262), or the effect of the instruction it runs, counted unless that halted (R126, R127). -/
inductive StepEffect (rnd : Byte) (s : State) : State → Prop
  | stopped : s.on = false → StepEffect rnd s s
  | refused : s.on = true → 0xFFD < s.pc.toNat →
      StepEffect rnd s (raise .pcBounds 0 s.pc (tick (takeInput rnd s)))
  | illegal {w : Word} : Fetches s w → decode w = none →
      StepEffect rnd s (raise .decodeError w s.pc (advance (tick (takeInput rnd s))))
  | ran {i : Instr} {u : State} : Runs s i → Effect (advance (tick (takeInput rnd s))) i u →
      StepEffect rnd s { u with cycles := if u.on then u.cycles + 1 else u.cycles }

theorem coreStep_effect {rnd : Byte} {s t : State} (h : coreStep rnd s = .next t) : StepEffect rnd s t := by
  rcases coreStep_cases h with ⟨hoff, rfl⟩ | ⟨hon, hf, rfl⟩ | ⟨hon, hf, w, hw, hd⟩
  · exact .stopped hoff
  · exact .refused hon (of_decide_eq_true hf)
  · have hfetch : Fetches s w :=
      ⟨hon, Nat.le_of_not_lt (of_decide_eq_false hf), hw ▸ joinBytes_toNat _ _⟩
    rcases hd with ⟨hd, rfl⟩ | ⟨i, u, hd, he, rfl⟩
    · rw [BitVec.add_sub_cancel]
      exact .illegal hfetch hd
    · rw [countCycle_eq]
      exact .ran ⟨w, hfetch, hd⟩ (effect_of_exec he)

end Sys2Proof.Machine
end

section
/-! PROOF. The invariant of 10_state.md R38: it holds after `init`, and every instruction, step and host command keeps
it. -/

namespace Sys2Proof.Machine

theorem reset_inv : State.reset.Inv := by
  refine ⟨Memory.wf_nil, by decide, fun k => ?_, fun h => by cases h⟩
  simp [State.stackAt, State.reset, Vector.get_eq_getElem]

/-- A halt keeps the invariant: it leaves the engine STOPPED and moves nothing that R38 bounds. -/
theorem raise_inv {s : State} (h : s.Inv) (c : HaltCause) (opc addr : Word) : (raise c opc addr s).Inv := by
  obtain ⟨hmem, hpc, hstack, -⟩ := h
  exact ⟨hmem, hpc, hstack, fun hon => by cases hon⟩

theorem setPc_inv {s : State} (h : s.Inv) {w : Word} (hw : w.toNat ≤ 0x10FE) : (s.setPc w).Inv := by
  obtain ⟨hmem, -, hstack, hcause⟩ := h
  exact ⟨hmem, hw, hstack, hcause⟩

theorem setMem_inv {s : State} (h : s.Inv) {m : Memory} (hm : s.mem.wf → m.wf) : ({ s with mem := m } : State).Inv := by
  obtain ⟨hmem, hpc, hstack, hcause⟩ := h
  exact ⟨hm hmem, hpc, hstack, hcause⟩

/-- A pushed word of at most 0xFFF keeps every stack entry so (R25). -/
theorem stackAt_set_le {s : State} (hs : ∀ k, (s.stackAt k).toNat ≤ 0xFFF) {w : Word} (hw : w.toNat ≤ 0xFFF) {n : Nat}
    (h : n < 16) (k : Fin 16) : (({ s with stack := s.stack.set n w h } : State).stackAt k).toNat ≤ 0xFFF := by
  simp only [State.stackAt, Vector.get_eq_getElem, Vector.getElem_set]
  split
  · exact hw
  · exact hs k

/-! ## An instruction -/

theorem target_toNat_le (nnn : Addr12) : (target nnn).toNat ≤ 0xFFF := by
  have := nnn.isLt
  rw [target, BitVec.toNat_ofNat]; omega

theorem targetOffset_toNat_le (nnn : Addr12) (s : State) : (targetOffset nnn s).toNat ≤ 0x10FE := by
  have := nnn.isLt
  have := (s.reg 0).isLt
  rw [targetOffset, BitVec.toNat_ofNat]; omega

/-- pc stays within R24's bound, in an instruction whose own address is at most 0xFFD. -/
theorem NextPc.toNat_le {s : State} {w : Word} (h : NextPc s w) (hlo : 2 ≤ s.pc.toNat) (hhi : s.pc.toNat ≤ 0xFFF) :
    w.toNat ≤ 0x10FE := by
  cases h with
  | stays => omega
  | skips => rw [BitVec.toNat_add]; simp; omega
  | repeats =>
    have h2 : (2 : Word) ≤ s.pc := BitVec.le_def.2 hlo
    rw [BitVec.toNat_sub_of_le h2]; omega
  | jumps nnn => exact (target_toNat_le nnn).trans (by decide)
  | jumpsBy nnn => exact targetOffset_toNat_le nnn s

/-- An instruction executed at an advanced pc keeps the invariant. -/
theorem Effect.inv {s t : State} {i : Instr} (h : Effect s i t) (hs : s.Inv) (hlo : 2 ≤ s.pc.toNat)
    (hhi : s.pc.toNat ≤ 0xFFF) : t.Inv := by
  cases h with
  | halts _ => exact raise_inv hs _ _ _
  | movesPc _ hw => exact setPc_inv hs (hw.toNat_le hlo hhi)
  | pops h =>
    obtain ⟨hmem, -, hstack, hcause⟩ := hs
    exact ⟨hmem, (hstack _).trans (by decide), hstack, hcause⟩
  | pushes nnn h =>
    obtain ⟨hmem, -, hstack, hcause⟩ := hs
    exact ⟨hmem, (target_toNat_le nnn).trans (by decide), stackAt_set_le hstack hhi h, hcause⟩
  | storesDigits _ hm | storesRegs _ hm => exact setMem_inv hs hm
  | _ => exact hs

/-! ## A step -/

/-- The state in which a fetched word is decoded and executed meets the invariant, at a pc from 2 to 0xFFF. -/
theorem advanced_inv {s : State} (hs : s.Inv) (hp : s.pc.toNat ≤ 0xFFD) (rnd : Byte) :
    (advance (tick (takeInput rnd s))).Inv ∧ (advance (tick (takeInput rnd s))).pc.toNat = s.pc.toNat + 2 := by
  have hpc : (s.pc + 2).toNat = s.pc.toNat + 2 := by rw [BitVec.toNat_add]; simp; omega
  exact ⟨setPc_inv (s := tick (takeInput rnd s)) hs (w := s.pc + 2) (by omega), hpc⟩

theorem coreStep_inv {rnd : Byte} {s t : State} (hs : s.Inv) (h : coreStep rnd s = .next t) : t.Inv := by
  cases coreStep_effect h with
  | stopped _ => exact hs
  | refused _ _ => exact raise_inv (s := tick (takeInput rnd s)) hs _ _ _
  | illegal hf _ => exact raise_inv (advanced_inv hs hf.2.1 rnd).1 _ _ _
  | ran hr he =>
    obtain ⟨w, ⟨-, hp, -⟩, -⟩ := hr
    obtain ⟨hinv, hpc⟩ := advanced_inv hs hp rnd
    exact he.inv hinv (by omega) (by omega)

/-! ## The host's commands -/

theorem hostLoad_inv {s : State} (hs : s.Inv) (image : List Byte) : (hostLoad image s).Inv := by
  unfold hostLoad
  split
  · next hadm =>
    have hlen : image.length ≤ Config.maxImage := by
      rw [loadAdmitted, Bool.and_eq_true] at hadm
      exact of_decide_eq_true hadm.2
    have hfit : Config.progBase + image.length ≤ Config.memLast + 1 := by
      unfold Config.progBase Config.memLast; unfold Config.maxImage at hlen; omega
    exact setMem_inv hs (Memory.writeImage_spec image s.mem _ hfit).1
  · exact hs

theorem hostStart_inv {s : State} (hs : s.Inv) : (hostStart s).Inv := by
  unfold hostStart
  split
  · next hready =>
    obtain ⟨hmem, hpc, hstack, -⟩ := hs
    rw [Bool.and_eq_true] at hready
    exact ⟨hmem, hpc, hstack, fun _ => of_decide_eq_true hready.2⟩
  · exact hs

theorem hostStop_inv {s : State} (hs : s.Inv) : (hostStop s).Inv := by
  unfold hostStop
  split
  · exact raise_inv hs _ _ _
  · exact hs

theorem hostAct_inv (c : HostCommand) {s t : State} (hs : s.Inv) (h : hostAct c s = .next t) : t.Inv := by
  cases c with
  | step rnd => exact coreStep_inv hs h
  | init => exact Host.Outcome.next.inj h ▸ reset_inv
  | load image => exact Host.Outcome.next.inj h ▸ hostLoad_inv hs image
  | start => exact Host.Outcome.next.inj h ▸ hostStart_inv hs
  | stop => exact Host.Outcome.next.inj h ▸ hostStop_inv hs
  | keyWrite _ _ | redrawAck => exact Host.Outcome.next.inj h ▸ hs

/-! ## A session -/

theorem session_cons_next {c : HostCommand} {cs : List HostCommand} {s t : State} (h : session (c :: cs) s = .next t) :
    ∃ u, hostAct c s = .next u ∧ session cs u = .next t := by
  rw [session] at h
  split at h
  · next u hu => exact ⟨u, hu, h⟩
  · cases h
  · cases h

/-- What every command of a list keeps, the session of them keeps. -/
theorem session_keeps {P : State → Prop} {cs : List HostCommand}
    (keeps : ∀ c ∈ cs, ∀ s t, P s → hostAct c s = .next t → P t) {s t : State} (hs : P s)
    (h : session cs s = .next t) : P t := by
  induction cs generalizing s with
  | nil => exact Host.Outcome.next.inj h ▸ hs
  | cons c cs ih =>
    obtain ⟨u, hu, ht⟩ := session_cons_next h
    exact ih (fun d hd => keeps d (List.mem_cons_of_mem _ hd)) (keeps c List.mem_cons_self s u hs hu) ht

/-- Settles O13, by the effects of a step: a fetch leaves a pc from 2 to 0xFFF to execute at. -/
theorem everyStepKeepsTheInvariant : Obligations.EveryStepKeepsTheInvariant :=
  fun _ _ => coreStep_inv

/-- Settles O60, by induction on the session. -/
theorem everySessionKeepsTheInvariant : Obligations.EverySessionKeepsTheInvariant :=
  fun _ _ _ => session_keeps fun c _ _ _ => hostAct_inv c

/-- Settles O14. -/
theorem resetMeetsTheInvariant : Obligations.ResetMeetsTheInvariant := reset_inv

end Sys2Proof.Machine
end

section
/-! PROOF. Which instruction writes what (10_state.md R20, R23): of each effect, the stores it leaves as they were. In
these lemmas `P` is any property of the instruction executed; in the claims about a step it is `Runs s`. -/

namespace Sys2Proof.Machine

variable {s t : State} {i : Instr} {P : Instr → Prop}

theorem Effect.keyDown (h : Effect s i t) (k : Fin 16) : t.keyDown k = s.keyDown k := by
  cases h <;> rfl

theorem Effect.needsRedraw (h : Effect s i t) (hs : s.needsRedraw = true) : t.needsRedraw = true := by
  cases h with
  | clears | draws => rfl
  | _ => exact hs

theorem Effect.sameMem_or (h : Effect s i t) (hi : P i) : SameMem s t ∨ ∃ x, P (.bcd x) ∨ P (.storeRegs x) := by
  cases h with
  | storesDigits x _ => exact .inr ⟨x, .inl hi⟩
  | storesRegs x _ => exact .inr ⟨x, .inr hi⟩
  | _ => exact .inl fun _ => rfl

theorem Effect.stackAt_or (h : Effect s i t) (hi : P i) : (∀ k, t.stackAt k = s.stackAt k) ∨ ∃ nnn, P (.call nnn) := by
  cases h with
  | pushes nnn _ => exact .inr ⟨nnn, hi⟩
  | _ => exact .inl fun _ => rfl

theorem Effect.sp_or (h : Effect s i t) (hi : P i) : t.sp = s.sp ∨ P .ret ∨ ∃ nnn, P (.call nnn) := by
  cases h with
  | pops _ => exact .inr (.inl hi)
  | pushes nnn _ => exact .inr (.inr ⟨nnn, hi⟩)
  | _ => exact .inl rfl

theorem Effect.sameDisplay_or (h : Effect s i t) (hi : P i) :
    SameDisplay s t ∨ P .clearScreen ∨ ∃ x y n, P (.draw x y n) := by
  cases h with
  | clears => exact .inr (.inl hi)
  | draws x y n _ => exact .inr (.inr ⟨x, y, n, hi⟩)
  | _ => exact .inl ⟨fun _ _ => rfl, rfl⟩

theorem Effect.index_or (h : Effect s i t) (hi : P i) :
    t.I = s.I ∨ (∃ nnn, P (.loadIndex nnn)) ∨ ∃ x, P (.addIndex x) ∨ P (.fontAddr x) := by
  cases h with
  | loadsIndex nnn => exact .inr (.inl ⟨nnn, hi⟩)
  | addsIndex x => exact .inr (.inr ⟨x, .inl hi⟩)
  | pointsAtGlyph x => exact .inr (.inr ⟨x, .inr hi⟩)
  | _ => exact .inl rfl

/-- Settles O16: of the step's four effects only an instruction's changes one of these stores. -/
theorem eachStoreIsWrittenOnlyByItsInstructions : Obligations.EachStoreIsWrittenOnlyByItsInstructions := by
  intro s t h
  cases coreStep_effect h with
  | ran hr he =>
    exact ⟨he.keyDown, he.needsRedraw, he.sameMem_or hr, he.stackAt_or hr, he.sp_or hr, he.sameDisplay_or hr,
      he.index_or hr⟩
  | stopped | refused | illegal =>
    exact ⟨fun _ => rfl, id, .inl fun _ => rfl, .inl fun _ => rfl, .inl rfl, .inl ⟨fun _ _ => rfl, rfl⟩, .inl rfl⟩

/-! ## VF -/

/-- An instruction of those that write VF as a flag has `P` (R23). -/
def FlagWriterRuns (P : Instr → Prop) : Prop :=
  ∃ x y, P (.add x y) ∨ P (.sub x y) ∨ P (.shr x y) ∨ P (.subn x y) ∨ P (.shl x y) ∨ ∃ n, P (.draw x y n)

/-- An instruction of those whose ordinary destination is VF has `P` (R23, R205). -/
def WriterOfVFRuns (P : Instr → Prop) : Prop :=
  (∃ nn, P (.loadImm VF nn) ∨ P (.addImm VF nn) ∨ P (.rand VF nn)) ∨
    (∃ y, P (.move VF y) ∨ P (.or VF y) ∨ P (.and VF y) ∨ P (.xor VF y)) ∨
    P (.getDelay VF) ∨ P (.waitKey VF) ∨ P (.loadRegs VF)

theorem FlagWriter.runs {x : Reg} (h : FlagWriter x i) (hi : P i) : FlagWriterRuns P := by
  cases h with
  | add y => exact ⟨x, y, .inl hi⟩
  | sub y => exact ⟨x, y, .inr (.inl hi)⟩
  | shr y => exact ⟨x, y, .inr (.inr (.inl hi))⟩
  | subn y => exact ⟨x, y, .inr (.inr (.inr (.inl hi)))⟩
  | shl y => exact ⟨x, y, .inr (.inr (.inr (.inr (.inl hi))))⟩

theorem RegWriter.runs (h : RegWriter VF i) (hi : P i) : WriterOfVFRuns P := by
  cases h with
  | loadImm nn => exact .inl ⟨nn, .inl hi⟩
  | addImm nn => exact .inl ⟨nn, .inr (.inl hi)⟩
  | rand nn => exact .inl ⟨nn, .inr (.inr hi)⟩
  | move y => exact .inr (.inl ⟨y, .inl hi⟩)
  | or y => exact .inr (.inl ⟨y, .inr (.inl hi)⟩)
  | and y => exact .inr (.inl ⟨y, .inr (.inr (.inl hi))⟩)
  | xor y => exact .inr (.inl ⟨y, .inr (.inr (.inr hi))⟩)
  | getDelay => exact .inr (.inr (.inl hi))
  | waitKey => exact .inr (.inr (.inr (.inl hi)))

theorem eq_or_reg_VF_setReg (s : State) (x : Reg) (v : Byte) : (s.setReg x v).reg VF = s.reg VF ∨ x = VF := by
  by_cases hx : VF = x
  · exact .inr hx.symm
  · exact .inl (reg_setReg_other s v hx)

/-- FX65 reaches VF only with x = F (R205). -/
theorem reg_VF_setRegs (s : State) {bs : List Byte} {x : Reg} (hlen : bs.length = x.val + 1) :
    (s.setRegs bs).reg VF = s.reg VF ∨ x = VF := by
  by_cases hx : x = VF
  · exact .inr hx
  · have hVF : VF.val = 15 := rfl
    have hne : x.val ≠ VF.val := Fin.val_ne_of_ne hx
    exact .inl (by rw [reg_setRegs s bs (by omega), dif_neg (by omega)])

theorem Effect.reg_VF_or (h : Effect s i t) (hi : P i) : t.reg VF = s.reg VF ∨ FlagWriterRuns P ∨ WriterOfVFRuns P := by
  cases h with
  | writesFlag _ _ hf => exact .inr (.inl (hf.runs hi))
  | draws x y n _ => exact .inr (.inl ⟨x, y, .inr (.inr (.inr (.inr (.inr ⟨n, hi⟩))))⟩)
  | writesReg v hw =>
    refine (eq_or_reg_VF_setReg s _ v).imp_right fun hx => ?_
    subst hx
    exact .inr (hw.runs hi)
  | loadsRegs x bs hlen =>
    refine (reg_VF_setRegs s hlen).imp_right fun hx => ?_
    subst hx
    exact .inr (.inr (.inr (.inr (.inr hi))))
  | _ => exact .inl rfl

/-- Settles O17: of the step's four effects only an instruction's changes a register. -/
theorem onlyFlagWritersTouchVFOnTheSide : Obligations.OnlyFlagWritersTouchVFOnTheSide := by
  intro s t h
  cases coreStep_effect h with
  | ran hr he => exact he.reg_VF_or hr
  | stopped | refused | illegal => exact .inl rfl

end Sys2Proof.Machine
end

section
/-! PROOF. The values of the state after `init` (10_state.md R36, R37). -/

namespace Sys2Proof.Machine

theorem resetByte_below_font {a : Nat} (h : a < Config.fontBase) : resetByte a = 0 := if_neg (Nat.not_le.2 h)

theorem resetByte_font (k : Nat) : resetByte (Config.fontBase + k) = Config.fontRom.getD k 0 := by
  rw [resetByte, if_pos (Nat.le_add_right _ _), Nat.add_sub_cancel_left]

theorem length_fontRom : Config.fontRom.length = 80 := rfl

theorem resetByte_above_font {a : Nat} (h : Config.fontBase + 80 ≤ a) : resetByte a = 0 := by
  obtain ⟨k, rfl⟩ := Nat.exists_eq_add_of_le h
  rw [Nat.add_assoc, resetByte_font]
  exact List.getD_eq_default _ _ (by rw [length_fontRom]; omega)

theorem reset_reg (r : Reg) : State.reset.reg r = 0 := by
  simp [State.reg, State.reset, Vector.get_eq_getElem]

theorem reset_stackAt (k : Fin 16) : State.reset.stackAt k = 0 := by
  simp [State.stackAt, State.reset, Vector.get_eq_getElem]

theorem reset_keyDown (k : Fin 16) : State.reset.keyDown k = false := by
  simp [State.keyDown, State.reset, Vector.get_eq_getElem]

/-- Settles O54: memory reads as `resetByte`, by its ranges; every other field is a constant. -/
theorem resetHoldsTheValuesOfInit : Obligations.ResetHoldsTheValuesOfInit :=
  ⟨fun _ h => resetByte_below_font h, fun k _ => resetByte_font k, rfl, fun _ h _ => resetByte_above_font h,
    reset_reg, rfl, reset_stackAt, rfl, rfl, rfl, rfl, cell_blank, reset_keyDown, rfl, rfl, rfl, rfl, rfl, rfl, rfl⟩

end Sys2Proof.Machine
end

section
/-! PROOF. Where the bound checks of 20_memory.md stand: a fetch past the bound and an index past memory halt and leave
nothing but their trace (R68, R69), so no instruction and no step faults or is refused (R126). -/

namespace Sys2Proof.Machine

/-! ## Halts and their frame -/

/-- The halt procedure changes nothing but the run flag and the diagnostics (R266). -/
theorem raise_haltsWith (c : HaltCause) (opc addr : Word) (s : State) : HaltsWith c opc addr s (raise c opc addr s) :=
  ⟨⟨rfl, rfl, rfl, rfl⟩, fun _ _ => rfl, rfl, rfl, fun _ => rfl, ⟨fun _ => rfl, rfl⟩, ⟨fun _ _ => rfl, rfl⟩, ⟨rfl, rfl⟩,
    fun _ => rfl, rfl, rfl, rfl⟩

/-- A halt inside an instruction records its opcode and its address (R126). -/
theorem raiseIn_haltsWith {i : Instr} {opc : Word} (h : encode i = opc) (c : HaltCause) (s : State) :
    HaltsWith c opc (s.pc - 2) s (raiseIn c i s) :=
  h ▸ raise_haltsWith c (encode i) (s.pc - 2) s

/-- A halt after the tick alone leaves the timers one less and no other store changed (R128). -/
theorem raise_tick_frame (rnd : Byte) (c : HaltCause) (opc addr : Word) (s : State) :
    Ticked s (raise c opc addr (tick (takeInput rnd s))) ∧ OnlyStepFrame s (raise c opc addr (tick (takeInput rnd s))) :=
  ⟨⟨countDown_toNat s.DT, countDown_toNat s.ST⟩, fun _ _ => rfl, rfl, fun _ => rfl, ⟨fun _ => rfl, rfl⟩,
    ⟨fun _ _ => rfl, rfl⟩, fun _ => rfl⟩

/-- Settles O9: the step is the refused fetch, whose halt comes after the tick. -/
theorem fetchPastTheBoundHaltsWithPcBounds : Obligations.FetchPastTheBoundHaltsWithPcBounds := by
  intro s hon hpc
  have hf : fetchRefused s = true := decide_eq_true (by unfold Config.pcFetchLast; omega)
  obtain ⟨hticked, hframe⟩ := raise_tick_frame (Config.rndInput s.draws) .pcBounds 0 s.pc s
  exact ⟨_, coreStep_refused _ s hon hf, rfl, rfl, rfl, rfl, rfl, rfl, hticked, rfl, hframe⟩

/-! ## No fault and no refusal -/

theorem exec_answers (i : Instr) (s : State) : ∃ t, exec i s = .next t :=
  (exec_effect i s).imp fun _ h => h.1

theorem runWord_answers (w : Word) (s : State) : ∃ t, runWord w s = .next t := by
  cases hd : decode w with
  | none => exact ⟨_, runWord_illegal s hd⟩
  | some i =>
    obtain ⟨t, ht⟩ := exec_answers i s
    exact ⟨_, runWord_next hd ht⟩

theorem coreStep_answers (rnd : Byte) (s : State) : ∃ t, coreStep rnd s = .next t := by
  cases hon : s.on with
  | false => exact ⟨_, coreStep_stopped rnd s hon⟩
  | true =>
    cases hf : fetchRefused s with
    | true => exact ⟨_, coreStep_refused rnd s hon hf⟩
    | false =>
      rw [coreStep_fetched rnd s hon hf]
      exact runWord_answers _ _

/-- Settles O12, by the effects of the instructions and the equations of the step. -/
theorem everyStepAnswersANextState : Obligations.EveryStepAnswersANextState :=
  ⟨exec_answers, fun s => coreStep_answers _ s⟩

/-! ## An index past memory -/

/-- The opcode of major F with the function code `nn` (R95). -/
theorem wordI_F (x : Reg) (nn : Byte) : wordI 0xF x nn = BitVec.ofNat 16 (0xF000 + nn.toNat + x.val * 256) := by
  rw [wordI, Nat.add_right_comm]

/-- Settles O44: each form's bound check comes before its first access, so the halt is all it does. -/
theorem indexPastMemoryHaltsWithNoPartialEffect : Obligations.IndexPastMemoryHaltsWithNoPartialEffect :=
  fun x y n s =>
    ⟨fun hn h => ⟨_, execDraw_halts s x y n hn h, raiseIn_haltsWith (i := .draw x y n) rfl _ s⟩,
      fun h => ⟨_, execBcd_halts s x h, raiseIn_haltsWith (i := .bcd x) (wordI_F x 0x33) _ s⟩,
      fun h => ⟨_, execStoreRegs_halts s x h, raiseIn_haltsWith (i := .storeRegs x) (wordI_F x 0x55) _ s⟩,
      fun h => ⟨_, execLoadRegs_halts s x h, raiseIn_haltsWith (i := .loadRegs x) (wordI_F x 0x65) _ s⟩⟩

end Sys2Proof.Machine
end

section
/-! PROOF. A store is what the next fetch reads (20_memory.md R73): FX55 and FX33 at the pc already advanced, and the
whole step around them, which hands the fetch on unchanged. -/

namespace Sys2Proof.Machine

/-- The engine's next fetch is that of the word at pc, and the next step runs it (R63, R123). -/
theorem nextFetch_of_fetches {s : State} {v : Word} (h : Fetches s v) : NextFetch s v.toNat := by
  obtain ⟨hon, hpc, hv⟩ := h
  exact hv ▸ nextFetch_of_running hon hpc

/-- The count of a step is no part of what the next fetch reads (R127). -/
theorem nextFetch_countCycle {t : State} {w : Nat} (h : NextFetch t w) : NextFetch (countCycle t) w := by
  obtain ⟨v, rfl, hv, -⟩ := h
  rw [countCycle_eq]
  exact nextFetch_of_fetches hv

/-- A step's next fetch is the one its instruction leaves. -/
theorem step_nextFetch {s : State} {i : Instr} {w : Nat} (hr : Runs s i)
    (h : ∃ t, exec i s.fetched = .next t ∧ NextFetch t w) : ∃ t, step s = .next t ∧ NextFetch t w := by
  obtain ⟨v, hv, hd⟩ := hr
  obtain ⟨t, ht, hnext⟩ := h
  exact ⟨_, (step_of_fetches hv).trans (runWord_next hd ht), nextFetch_countCycle hnext⟩

/-- A store inside memory leaves for the next fetch the stored bytes and, where none is stored, the old ones (R73). -/
theorem storeBytes_nextFetch {a : Nat} {bs : List Byte} {s : State} (hfit : a + bs.length ≤ Config.memLast + 1)
    (hon : s.on = true) (hpc : s.pc.toNat ≤ 0xFFD) :
    ∃ t, storeBytes a bs s = .next t ∧ NextFetch t (wordAfterStore s a bs s.pc.toNat) := by
  obtain ⟨m, hm, -, stored, kept⟩ := storeBytes_next a bs s hfit
  have hbyte := byteAt_eq_byteAfterStore stored kept
  refine ⟨_, hm, ?_⟩
  rw [wordAfterStore, ← hbyte, ← hbyte]
  exact nextFetch_of_running (s := { s with mem := m }) hon hpc

theorem execStoreRegs_nextFetch {x : Reg} {s : State} (h : s.I.toNat + x.val ≤ 0xFFF) (hon : s.on = true)
    (hpc : s.pc.toNat ≤ 0xFFD) :
    ∃ t, exec (.storeRegs x) s = .next t ∧ NextFetch t (wordAfterStore s s.I.toNat (s.regsTo x) s.pc.toNat) := by
  rw [exec, execStoreRegs_stores s x h]
  exact storeBytes_nextFetch (by rw [length_regsTo]; unfold Config.memLast; omega) hon hpc

theorem execBcd_nextFetch {x : Reg} {s : State} (h : s.I.toNat + 2 ≤ 0xFFF) (hon : s.on = true)
    (hpc : s.pc.toNat ≤ 0xFFD) :
    ∃ t, exec (.bcd x) s = .next t ∧ NextFetch t (wordAfterStore s s.I.toNat (bcdDigits (s.reg x)) s.pc.toNat) := by
  rw [exec, execBcd_stores s x h]
  exact storeBytes_nextFetch (by rw [length_bcdDigits]; unfold Config.memLast; omega) hon hpc

/-- The registers FX55 stores, register by register (R204). -/
theorem regsTo_eq_map_reg (s : State) (x : Reg) : s.regsTo x = ((List.finRange 16).take (x.val + 1)).map s.reg := by
  refine List.ext_getElem (by simp) fun k h _ => ?_
  rw [getElem_regsTo s x k h]
  simp

/-- An instruction executes in a RUNNING engine, at a pc that did not wrap when it was advanced (R123). -/
theorem fetched_of_runs {s : State} {i : Instr} (h : Runs s i) :
    s.fetched.on = true ∧ s.fetched.pc.toNat = s.pc.toNat + 2 := by
  obtain ⟨w, ⟨hon, hpc, -⟩, -⟩ := h
  have h2 : (2 : Word).toNat = 2 := rfl
  exact ⟨hon, BitVec.toNat_add_of_lt (by omega)⟩

/-- Settles O45: over the execution alone by the store's bytes, over a whole step by the execution at `fetched`. -/
theorem theNextFetchSeesAStore : Obligations.TheNextFetchSeesAStore := by
  intro x s
  dsimp only
  rw [← regsTo_eq_map_reg]
  refine ⟨execStoreRegs_nextFetch, fun h hr hpc => ?_, execBcd_nextFetch, fun h hr hpc => ?_⟩
  · obtain ⟨hon, hadvanced⟩ := fetched_of_runs hr
    rw [← hadvanced] at hpc ⊢
    exact step_nextFetch hr (execStoreRegs_nextFetch (s := s.fetched) h hon hpc)
  · obtain ⟨hon, hadvanced⟩ := fetched_of_runs hr
    rw [← hadvanced] at hpc ⊢
    exact step_nextFetch hr (execBcd_nextFetch (s := s.fetched) h hon hpc)

end Sys2Proof.Machine
end

section
/-! PROOF. The host's `load` (20_memory.md R75). -/

namespace Sys2Proof.Machine

theorem loadAdmitted_iff (image : List Byte) (s : State) :
    loadAdmitted image s = true ↔ s.on = false ∧ s.haltCause = .none ∧ image.length ≤ Config.maxImage := by
  simp [loadAdmitted, and_assoc]

theorem hostLoad_admitted {image : List Byte} {s : State} (h : loadAdmitted image s = true) :
    hostLoad image s = { s with mem := s.mem.writeImage 0x200 image } :=
  if_pos h

theorem hostLoad_refused {image : List Byte} {s : State} (h : ¬ loadAdmitted image s = true) : hostLoad image s = s :=
  if_neg h

/-- New memory that differs only in the `n` bytes from `base` is all that changes. -/
theorem onlyMem_setMem {s : State} {m : Memory} {base n : Nat}
    (kept : ∀ b, b < base ∨ base + n ≤ b → m.byteAt b = s.byteAt b) : OnlyMem base n s { s with mem := m } :=
  ⟨fun _ _ => rfl, rfl, rfl, kept, ⟨fun _ => rfl, rfl⟩, ⟨fun _ _ => rfl, rfl⟩, ⟨rfl, rfl⟩, ⟨fun _ => rfl, rfl, rfl, rfl⟩,
    rfl, rfl, rfl, rfl⟩

/-- Settles O56: an admitted image fits below 0x1000, so its bytes and no others are written. -/
theorem loadCopiesTheImageBeforeARun : Obligations.LoadCopiesTheImageBeforeARun := by
  refine fun image s => ⟨fun hon hcause hlen => ?_, fun h => ?_⟩
  · obtain ⟨-, stored, kept⟩ := Memory.writeImage_spec image s.mem 0x200 (by unfold Config.memLast; omega)
    have hload := hostLoad_admitted ((loadAdmitted_iff image s).2 ⟨hon, hcause, hlen⟩)
    exact ⟨_, congrArg Host.Outcome.next hload, stored, onlyMem_setMem kept⟩
  · refine congrArg Host.Outcome.next (hostLoad_refused fun hadm => ?_)
    obtain ⟨hon, hcause, hlen⟩ := (loadAdmitted_iff image s).1 hadm
    rcases h with h | h | h
    · exact Bool.noConfusion (hon.symm.trans h)
    · exact h hcause
    · exact Nat.not_le.2 h hlen

end Sys2Proof.Machine
end

section
/-! PROOF. The encoding of spec/30_encoding.md: the fields of a word and the word of its fields (R91, R92), and from
them the decoder and the encoder as inverses of each other (R94, R99). -/

namespace Sys2Proof

open Laws.EncodeMajor (wordA_major wordI_major wordR_major)

/-! ## The fields of a word, and of a word of each format (R91, R92) -/

theorem opField_lt (w : Word) : opField w < 16 := by
  unfold opField
  omega

theorem nnField_toNat (w : Word) : (nnField w).toNat = w.toNat % 256 := BitVec.toNat_ofNat ..

@[simp] theorem nnnField_wordA (op : Nat) (nnn : Addr12) : nnnField (wordA op nnn) = nnn := by
  apply BitVec.eq_of_toNat_eq
  simp only [nnnField, wordA, BitVec.toNat_ofNat]
  omega

@[simp] theorem xField_wordI (op : Nat) (x : Reg) (nn : Byte) : xField (wordI op x nn) = x := by
  apply Fin.ext
  simp only [xField, wordI, BitVec.toNat_ofNat]
  omega

@[simp] theorem nnField_wordI (op : Nat) (x : Reg) (nn : Byte) : nnField (wordI op x nn) = nn := by
  apply BitVec.eq_of_toNat_eq
  simp only [nnField, wordI, BitVec.toNat_ofNat]
  omega

@[simp] theorem xField_wordR (op : Nat) (x y : Reg) (n : Nibble) : xField (wordR op x y n) = x := by
  apply Fin.ext
  simp only [xField, wordR, BitVec.toNat_ofNat]
  omega

@[simp] theorem yField_wordR (op : Nat) (x y : Reg) (n : Nibble) : yField (wordR op x y n) = y := by
  apply Fin.ext
  simp only [yField, wordR, BitVec.toNat_ofNat]
  omega

@[simp] theorem nField_wordR (op : Nat) (x y : Reg) (n : Nibble) : nField (wordR op x y n) = n := by
  apply Fin.ext
  simp only [nField, wordR, BitVec.toNat_ofNat]
  omega

/-! ## A word is made of its fields, in each format -/

variable {w : Word} {op : Nat}

theorem wordA_fields (h : opField w = op) : wordA op (nnnField w) = w := by
  apply BitVec.eq_of_toNat_eq
  simp only [← h, opField, nnnField, wordA, BitVec.toNat_ofNat]
  omega

theorem wordI_fields (h : opField w = op) : wordI op (xField w) (nnField w) = w := by
  apply BitVec.eq_of_toNat_eq
  simp only [← h, opField, xField, nnField, wordI, BitVec.toNat_ofNat]
  omega

theorem wordR_fields (h : opField w = op) : wordR op (xField w) (yField w) (nField w) = w := by
  apply BitVec.eq_of_toNat_eq
  simp only [← h, opField, xField, yField, nField, wordR, BitVec.toNat_ofNat]
  omega

/-- Format X: with the function code `nn` in the low byte. -/
theorem wordI_code {nn : Byte} (h : opField w = op) (hnn : (nnField w).toNat = nn.toNat) : wordI op (xField w) nn = w :=
  BitVec.eq_of_toNat_eq hnn ▸ wordI_fields h

/-- Format R: with the function code `n` in the low nibble. -/
theorem wordR_code {n : Nibble} (h : opField w = op) (hn : (nField w).val = n.val) :
    wordR op (xField w) (yField w) n = w :=
  Fin.ext hn ▸ wordR_fields h

/-! ## The majors that are matched further (R94) -/

theorem decode_major0 (h : opField w = 0x0) : decode w = some (decodeZero w) := by simp [decode, h]

theorem decode_major8 (h : opField w = 0x8) : decode w = decodeAlu w := by simp [decode, h]

theorem decode_majorE (h : opField w = 0xE) : decode w = decodeKey w := by simp [decode, h]

theorem decode_majorF (h : opField w = 0xF) : decode w = decodeMisc w := by simp [decode, h]

/-- In major 0 the legacy-call with the word's address is well-formed unless the word is one of the two fixed ones. -/
theorem legacyCall_wellFormed_iff (h : opField w = 0x0) :
    (Instr.legacyCall (nnnField w)).WellFormed ↔ w ≠ 0x00E0 ∧ w ≠ 0x00EE := by
  have fixed (v : Word) (hv : opField v = 0x0) : nnnField w = nnnField v ↔ w = v :=
    ⟨fun e => by rw [← wordA_fields h, e, wordA_fields hv], congrArg nnnField⟩
  rw [ne_eq, ne_eq, ← fixed 0x00E0 rfl, ← fixed 0x00EE rfl]
  simp [Instr.WellFormed, Instr.wellFormed, nnnField]

/-! ## Decoding after encoding -/

theorem decode_wordA_legacyCall {nnn : Addr12} (h : (Instr.legacyCall nnn).WellFormed) :
    decode (wordA 0x0 nnn) = some (.legacyCall nnn) := by
  have hop : opField (wordA 0x0 nnn) = 0x0 := wordA_major _ (by decide) nnn
  obtain ⟨hE0, hEE⟩ := (legacyCall_wellFormed_iff hop).1 (by rwa [nnnField_wordA])
  simp only [decode_major0 hop, decodeZero, if_neg hE0, if_neg hEE, nnnField_wordA]

/-- Settles O1: each field of the opcode is the operand it was made of, and the major and the function code select the
instruction's own row. -/
theorem decodingAnEncodedInstructionGivesItBack : Obligations.DecodingAnEncodedInstructionGivesItBack := by
  intro i hwf
  cases i with
  | clearScreen | ret => rfl
  | legacyCall nnn => exact decode_wordA_legacyCall hwf
  | jump _ | call _ | loadIndex _ | jumpOffset _ => simp [encode, decode, wordA_major]
  | skipEqImm _ _ | skipNeqImm _ _ | loadImm _ _ | addImm _ _ | rand _ _ => simp [encode, decode, wordI_major]
  | skipEqReg _ _ | skipNeqReg _ _ | draw _ _ _ => simp [encode, decode, wordR_major]
  | move _ _ | or _ _ | and _ _ | xor _ _ | add _ _ | sub _ _ | shr _ _ | subn _ _ | shl _ _ =>
    simp [encode, decode_major8, decodeAlu, wordR_major]
  | skipKey _ | skipNotkey _ => simp [encode, decode_majorE, decodeKey, wordI_major]
  | getDelay _ | waitKey _ | setDelay _ | setSound _ | addIndex _ | fontAddr _ | bcd _ | storeRegs _ | loadRegs _ =>
    simp [encode, decode_majorF, decodeMisc, wordI_major]

/-! ## Encoding after decoding -/

variable {i : Instr}

theorem encode_decodeZero (h : opField w = 0x0) : (decodeZero w).WellFormed ∧ encode (decodeZero w) = w := by
  unfold decodeZero
  split
  · next hw => exact ⟨rfl, hw.symm⟩
  split
  · next hw => exact ⟨rfl, hw.symm⟩
  · next hE0 hEE => exact ⟨(legacyCall_wellFormed_iff h).2 ⟨hE0, hEE⟩, wordA_fields h⟩

theorem encode_decodeAlu (h : opField w = 0x8) (hi : decodeAlu w = some i) : i.WellFormed ∧ encode i = w := by
  unfold decodeAlu at hi
  split at hi <;> cases hi
  all_goals exact ⟨rfl, wordR_code h ‹_›⟩

theorem encode_decodeKey (h : opField w = 0xE) (hi : decodeKey w = some i) : i.WellFormed ∧ encode i = w := by
  unfold decodeKey at hi
  split at hi <;> cases hi
  all_goals exact ⟨rfl, wordI_code h ‹_›⟩

theorem encode_decodeMisc (h : opField w = 0xF) (hi : decodeMisc w = some i) : i.WellFormed ∧ encode i = w := by
  unfold decodeMisc at hi
  split at hi <;> cases hi
  all_goals exact ⟨rfl, wordI_code h ‹_›⟩

/-- Settles O2: the decoder keeps every field the row leaves free, and the row fixes the others. The case `h_k` is the
decoder's arm for major k - 1; the cases stand together by format (R92). -/
theorem everyLegalWordIsItsInstructionsOpcode : Obligations.EveryLegalWordIsItsInstructionsOpcode := by
  intro w i hi
  unfold decode at hi
  split at hi
  case h_1 h => exact Option.some.inj hi ▸ encode_decodeZero h
  case h_9 h => exact encode_decodeAlu h hi
  case h_15 h => exact encode_decodeKey h hi
  case h_16 h => exact encode_decodeMisc h hi
  case h_6 h | h_10 h =>
    split at hi <;> cases hi
    next hn => exact ⟨rfl, wordR_code h (congrArg Fin.val hn)⟩
  case h_14 h => cases hi; exact ⟨rfl, wordR_fields h⟩
  case h_2 h | h_3 h | h_11 h | h_12 h => cases hi; exact ⟨rfl, wordA_fields h⟩
  case h_4 h | h_5 h | h_7 h | h_8 h | h_13 h => cases hi; exact ⟨rfl, wordI_fields h⟩
  case h_17 => cases hi

/-- Settles O5: the decoder computes on each word. -/
theorem exampleWordsDecodeAsWritten : Obligations.ExampleWordsDecodeAsWritten := by
  unfold Obligations.ExampleWordsDecodeAsWritten
  decide

end Sys2Proof
end

section
/-! PROOF. The opcode map of spec/30_encoding.md R95, read by major: the rows of a major other than 0 hold a function
code in the low bits of the word, so the map and the decoder both look that code up, and a word is illegal when its
major has no such code (R96). -/

namespace Sys2Proof

variable {w : Word}

/-! ## The function codes of a major -/

/-- How many low bits of a word hold the function code in a major other than 0; none where the major has one row. -/
def codeWidth : Nat → Nat
  | 0x5 | 0x8 | 0x9 => 4
  | 0xE | 0xF => 8
  | _ => 0

/-- The function codes of a major other than 0 and the mnemonic of each (R95). -/
def functionCodes : Nat → List (Nat × String)
  | 0x1 => [(0, "jump")]
  | 0x2 => [(0, "call")]
  | 0x3 => [(0, "skip-eq-imm")]
  | 0x4 => [(0, "skip-neq-imm")]
  | 0x5 => [(0x0, "skip-eq-reg")]
  | 0x6 => [(0, "load-imm")]
  | 0x7 => [(0, "add-imm")]
  | 0x8 => [(0x0, "move"), (0x1, "or"), (0x2, "and"), (0x3, "xor"), (0x4, "add"), (0x5, "sub"), (0x6, "shr"),
      (0x7, "subn"), (0xE, "shl")]
  | 0x9 => [(0x0, "skip-neq-reg")]
  | 0xA => [(0, "load-index")]
  | 0xB => [(0, "jump-offset")]
  | 0xC => [(0, "rand")]
  | 0xD => [(0, "draw")]
  | 0xE => [(0x9E, "skip-key"), (0xA1, "skip-notkey")]
  | 0xF => [(0x07, "get-delay"), (0x0A, "wait-key"), (0x15, "set-delay"), (0x18, "set-sound"), (0x1E, "add-index"),
      (0x29, "font-addr"), (0x33, "bcd"), (0x55, "store-regs"), (0x65, "load-regs")]
  | _ => []

/-- The mnemonic of a function code in a major, `none` where the major has no such code. -/
def codeMnemonic (op code : Nat) : Option String :=
  ((functionCodes op).find? (fun c => decide (code = c.1))).map Prod.snd

/-- The function code of a word (R91). -/
def wordCode (w : Word) : Nat := w.toNat % 2 ^ codeWidth (opField w)

theorem codeMnemonic_eq_none_iff (op code : Nat) :
    codeMnemonic op code = none ↔ ∀ c ∈ functionCodes op, code ≠ c.1 := by
  simp [codeMnemonic]

/-! ## The decoder looks the function code up -/

theorem decodeAlu_mnemonic (w : Word) : (decodeAlu w).map Instr.mnemonic = codeMnemonic 0x8 (nField w).val := by
  unfold decodeAlu
  split <;> simp_all [codeMnemonic, functionCodes, Instr.mnemonic]

theorem decodeKey_mnemonic (w : Word) : (decodeKey w).map Instr.mnemonic = codeMnemonic 0xE (nnField w).toNat := by
  unfold decodeKey
  split <;> simp_all [codeMnemonic, functionCodes, Instr.mnemonic]

theorem decodeMisc_mnemonic (w : Word) : (decodeMisc w).map Instr.mnemonic = codeMnemonic 0xF (nnField w).toNat := by
  unfold decodeMisc
  split <;> simp_all [codeMnemonic, functionCodes, Instr.mnemonic]

/-- In every major but 0 the decoder gives the instruction of the word's function code, and none where the major has no
such code (R94). As in the proof of O2, `h_k` is the decoder's arm for major k - 1. -/
theorem decode_mnemonic (h : opField w ≠ 0x0) :
    (decode w).map Instr.mnemonic = codeMnemonic (opField w) (wordCode w) := by
  unfold decode wordCode
  split
  case h_1 h0 => exact absurd h0 h
  case h_9 h8 => rw [h8]; exact decodeAlu_mnemonic w
  case h_15 hE => rw [hE, decodeKey_mnemonic, nnField_toNat]; rfl
  case h_16 hF => rw [hF, decodeMisc_mnemonic, nnField_toNat]; rfl
  case h_6 hop | h_10 hop =>
    have hn : nField w = 0 ↔ w.toNat % 16 = 0 := Fin.ext_iff
    rw [hop]
    split <;> simp_all [codeMnemonic, functionCodes, codeWidth, Instr.mnemonic]
  case h_2 hop | h_3 hop | h_4 hop | h_5 hop | h_7 hop | h_8 hop | h_11 hop | h_12 hop | h_13 hop | h_14 hop =>
    simp [codeMnemonic, functionCodes, codeWidth, Instr.mnemonic, Nat.mod_one, hop]
  case h_17 =>
    have := opField_lt w
    grind

/-! ## So does the opcode map -/

/-- The row selects the word (R95). -/
def OpRow.selects (w : Word) (row : OpRow) : Bool := w &&& row.mask == row.pattern

/-- The rows of R95 in a major. -/
def majorRows (op : Nat) : List OpRow := opcodeMap.filter fun row => opField row.pattern == op

/-- A mask that keeps all four bits of the major keeps the major. -/
theorem opField_and {m : Word} (hm : opField m = 2 ^ 4 - 1) (w : Word) : opField (w &&& m) = opField w := by
  have hdiv : w.toNat / 2 ^ 12 < 2 ^ 4 := opField_lt w
  calc (w &&& m).toNat / 2 ^ 12 = w.toNat / 2 ^ 12 &&& opField m := by
        rw [BitVec.toNat_and, Nat.and_div_two_pow]; rfl
    _ = w.toNat / 2 ^ 12 := by rw [hm, Nat.and_two_pow_sub_one_eq_mod, Nat.mod_eq_of_lt hdiv]

/-- Only a row of the word's own major selects it. -/
theorem major_of_selects {row : OpRow} (hrow : row ∈ opcodeMap) (h : row.selects w = true) :
    opField row.pattern = opField w := by
  have hmask : ∀ row ∈ opcodeMap, opField row.mask = 2 ^ 4 - 1 := by decide
  rw [← eq_of_beq h, opField_and (hmask row hrow)]

theorem find?_opcodeMap (w : Word) :
    opcodeMap.find? (OpRow.selects w) = (majorRows (opField w)).find? (OpRow.selects w) := by
  rw [majorRows, List.find?_filter]
  refine List.find?_congr fun row hrow => ?_
  cases hs : row.selects w with
  | false => simp
  | true => simp [major_of_selects hrow hs]

/-- The mask that keeps the major and the low `k` bits. -/
def codeMask (k : Nat) : Word := BitVec.ofNat 16 (0xF000 + (2 ^ k - 1))

theorem and_codeMask_toNat {k : Nat} (hk : k ≤ 12) (w : Word) :
    (w &&& codeMask k).toNat = opField w * 4096 + w.toNat % 2 ^ k := by
  have hle : 2 ^ k ≤ 2 ^ 12 := Nat.pow_le_pow_right (by decide) hk
  have hpos : 0 < 2 ^ k := Nat.two_pow_pos k
  have hmask : (codeMask k).toNat = 0xF000 + (2 ^ k - 1) := Nat.mod_eq_of_lt (by omega)
  have hhigh : opField (w &&& codeMask k) = opField w := opField_and (by unfold opField; omega) w
  have hlow : (w &&& codeMask k).toNat % 2 ^ 12 = w.toNat % 2 ^ k := by
    have hrest : (codeMask k).toNat % 2 ^ 12 = 2 ^ k - 1 := by omega
    rw [BitVec.toNat_and, Nat.and_mod_two_pow, hrest, Nat.and_two_pow_sub_one_eq_mod,
      Nat.mod_mod_of_dvd _ (Nat.pow_dvd_pow 2 hk)]
  unfold opField at hhigh ⊢
  omega

theorem selects_codeRow {k code : Nat} (hk : k ≤ 12) (hcode : code < 2 ^ k) (w : Word) (name : String) :
    OpRow.selects w ⟨codeMask k, BitVec.ofNat 16 (opField w * 4096 + code), name⟩ =
      decide (w.toNat % 2 ^ k = code) := by
  have hle : 2 ^ k ≤ 2 ^ 12 := Nat.pow_le_pow_right (by decide) hk
  have hop := opField_lt w
  have hlt : opField w * 4096 + code < 2 ^ 16 := by omega
  rw [OpRow.selects, Bool.eq_iff_iff, beq_iff_eq, decide_eq_true_iff, ← BitVec.toNat_inj, and_codeMask_toNat hk,
    BitVec.toNat_ofNat, Nat.mod_eq_of_lt hlt, Nat.add_right_inj]

/-- The rows of a major other than 0, from its codes: the mask of the code's width, and the code as the pattern. -/
def codeRows (op : Nat) : List OpRow :=
  (functionCodes op).map fun c => ⟨codeMask (codeWidth op), BitVec.ofNat 16 (op * 4096 + c.1), c.2⟩

theorem majorRows_eq_codeRows {op : Nat} (h0 : op ≠ 0) (h16 : op < 16) : majorRows op = codeRows op := by
  interval_cases op
  · exact absurd rfl h0
  all_goals rfl

theorem codeWidth_le (op : Nat) : codeWidth op ≤ 12 := by
  unfold codeWidth
  split <;> decide

theorem code_lt_width : ∀ op < 16, ∀ c ∈ functionCodes op, c.1 < 2 ^ codeWidth op := by decide

/-- In every major but 0 the first row that selects the word is the one of its function code (R95). -/
theorem find?_opcodeMap_mnemonic (h : opField w ≠ 0x0) :
    (opcodeMap.find? (OpRow.selects w)).map OpRow.mnemonic = codeMnemonic (opField w) (wordCode w) := by
  rw [find?_opcodeMap, majorRows_eq_codeRows h (opField_lt w), codeRows, List.find?_map, Option.map_map, codeMnemonic]
  congr 1
  refine List.find?_congr fun c hc => ?_
  exact selects_codeRow (codeWidth_le _) (code_lt_width _ (opField_lt w) c hc) w c.2

/-- In major 0 the two fixed words come before the row that selects every word (R95, R97). -/
theorem find?_opcodeMap_mnemonic_major0 (h : opField w = 0x0) :
    (opcodeMap.find? (OpRow.selects w)).map OpRow.mnemonic = some (decodeZero w).mnemonic := by
  have hrows : majorRows 0x0 =
    [⟨0xFFFF, 0x00E0, "clear-screen"⟩, ⟨0xFFFF, 0x00EE, "return"⟩, ⟨0xF000, 0x0000, "legacy-call"⟩] := rfl
  have hfixed (v : Word) (name : String) : OpRow.selects w ⟨0xFFFF, v, name⟩ = decide (w = v) :=
    congrArg (· == v) BitVec.and_allOnes
  have hevery (name : String) : OpRow.selects w ⟨0xF000, 0x0000, name⟩ = true :=
    beq_iff_eq.2 (BitVec.eq_of_toNat_eq ((and_codeMask_toNat (Nat.zero_le 12) w).trans (by simp [h, Nat.mod_one])))
  rw [find?_opcodeMap, h, hrows]
  by_cases hE0 : w = 0x00E0
  · subst hE0; rfl
  by_cases hEE : w = 0x00EE
  · subst hEE; rfl
  · simp only [List.find?_cons, hfixed, hevery, decodeZero, decide_eq_false hE0, decide_eq_false hEE, if_neg hE0,
      if_neg hEE]
    rfl

/-! ## The map and the illegal words -/

/-- Settles O4: in major 0 by its three rows, in every other major by the function code that both sides look up. -/
theorem decodingFollowsTheOpcodeMap : Obligations.DecodingFollowsTheOpcodeMap := by
  intro w
  change _ = (opcodeMap.find? (OpRow.selects w)).map OpRow.mnemonic
  by_cases h : opField w = 0x0
  · rw [decode_major0 h, find?_opcodeMap_mnemonic_major0 h]; rfl
  · rw [decode_mnemonic h, find?_opcodeMap_mnemonic h]

/-- Settles O3: a word of a major other than 0 is illegal when its function code is none of the major's. -/
theorem illegalWordsAreExactlyTheListedOnes : Obligations.IllegalWordsAreExactlyTheListedOnes := by
  intro w
  have hmajor : w.toNat / 4096 = opField w := rfl
  rw [hmajor]
  by_cases h0 : opField w = 0x0
  · simp [decode_major0 h0, h0]
  have h16 := opField_lt w
  rw [← Option.map_eq_none_iff (f := Instr.mnemonic), decode_mnemonic h0, codeMnemonic_eq_none_iff, wordCode]
  -- Left to arithmetic are major 0, excluded, and major 8, where R96 lists the illegal codes and not the legal ones.
  interval_cases opField w <;> simp [functionCodes, codeWidth, Nat.mod_one] <;> omega

end Sys2Proof
end

section
/-! PROOF. The step on an illegal word (spec/60_exceptions.md R262). -/

namespace Sys2Proof.Machine

/-- The state a fetched word executes in is what the first two phases leave (R122, R123). -/
theorem fetched_eq (s : State) : s.fetched = advance (tick (takeInput (Config.rndInput s.draws) s)) := by
  simp [State.fetched, advance, tick, takeInput, countDown_eq]

/-- Settles O8: after the tick and the advance of pc the word is raised, with the address it came from; pc is no part of
the frame, so the frame is that of a halt after the tick. -/
theorem illegalWordHaltsWithDecodeError : Obligations.IllegalWordHaltsWithDecodeError := by
  intro s w hfetch hillegal
  have hstep : step s = .next (raise .decodeError w (s.fetched.pc - 2) s.fetched) :=
    (step_of_fetches hfetch).trans (runWord_illegal _ hillegal)
  have haddr : s.fetched.pc - 2 = s.pc := BitVec.add_sub_cancel s.pc 2
  rw [haddr, fetched_eq] at hstep
  obtain ⟨hticked, hframe⟩ := raise_tick_frame (Config.rndInput s.draws) .decodeError w s.pc s
  exact ⟨_, hstep, rfl, rfl, rfl, rfl, rfl, rfl, hticked, rfl, hframe⟩

end Sys2Proof.Machine
end

section
/-! PROOF. The host's commands between steps (spec/40_step_cycle.md R130 to R136): what each of them answers, and that no
session without `init` leaves a terminal state (R271). -/

namespace Sys2Proof.Machine

variable {s t : State}

/-! ## start and stop -/

theorem hostStart_ready (hon : s.on = false) (hcause : s.haltCause = .none) : hostStart s = { s with on := true } := by
  simp [hostStart, hon, hcause]

theorem hostStart_ignored (h : s.on = true ∨ s.haltCause ≠ .none) : hostStart s = s := by
  rcases h with h | h <;> simp [hostStart, h]

theorem hostStop_running (h : s.on = true) : hostStop s = raise .stopRequest 0 s.pc s := by simp [hostStop, h]

theorem hostStop_stopped (h : s.on = false) : hostStop s = s := by simp [hostStop, h]

/-- Settles O57: in each row of R130 the command is what its equation says, and `stop` halts as `raise` does. -/
theorem startAndStopFollowTheRunStates : Obligations.StartAndStopFollowTheRunStates :=
  fun s => ⟨fun hon hcause => congrArg Host.Outcome.next (hostStart_ready hon hcause),
    fun h => congrArg Host.Outcome.next (hostStart_ignored h),
    fun hon => ⟨_, congrArg Host.Outcome.next (hostStop_running hon), raise_haltsWith _ _ _ s, rfl⟩,
    fun hon => congrArg Host.Outcome.next (hostStop_stopped hon)⟩

/-! ## Key writes, the redraw acknowledge, init -/

theorem keyDown_hostKeyWrite (k : Fin 16) (v : Byte) (s : State) (j : Fin 16) :
    (hostKeyWrite k v s).keyDown j = if j = k then decide (v ≠ 0) else s.keyDown j := by
  have e : j = k ↔ k.val = j.val := Fin.ext_iff.trans eq_comm
  simp only [State.keyDown, hostKeyWrite, Vector.get_eq_getElem, Vector.getElem_set, e]

/-- Settles O58: a key reads as written or as before, by whether it is the one written. -/
theorem keyWritesAndAcknowledgeTouchOneField : Obligations.KeyWritesAndAcknowledgeTouchOneField := by
  refine fun k v s => ⟨⟨_, rfl, ?_, fun j hj => ?_, rfl⟩, ⟨_, rfl, rfl, rfl⟩⟩
  · rw [keyDown_hostKeyWrite, if_pos rfl, decide_eq_true_iff]
  · rw [keyDown_hostKeyWrite, if_neg hj]

/-- Settles O55. -/
theorem initGivesTheResetState : Obligations.InitGivesTheResetState :=
  fun s => congrArg Host.Outcome.next (hostInit_eq s)

/-! ## A terminal state -/

theorem tone_stopped (h : s.on = false) : tone s = false := by simp [tone, h]

/-- Whether a command is a step, which is the only command with an output `tone` (R12). -/
def HostCommand.isStep : HostCommand → Bool
  | .step _ => true
  | .init | .load _ | .start | .stop | .keyWrite _ _ | .redrawAck => false

theorem commandTone_stopped (c : HostCommand) (h : s.on = false) :
    commandTone c s = List.replicate (if c.isStep then 1 else 0) false := by
  cases c with
  | step _ => simp [commandTone, HostCommand.isStep, tone_stopped h]
  | _ => rfl

/-- From a terminal state a command other than `init` answers that state but for what the host writes in any run state,
the keypad and needsRedraw (R130). -/
theorem hostAct_terminal {c : HostCommand} (hs : s.Terminal) (hc : c ≠ .init) :
    ∃ keys redraw, hostAct c s = .next { s with key := keys, needsRedraw := redraw } := by
  obtain ⟨hon, hcause⟩ := hs
  cases c with
  | init => exact absurd rfl hc
  | load image =>
    have hrefused : ¬ loadAdmitted image s = true := fun h => hcause ((loadAdmitted_iff image s).1 h).2.1
    exact ⟨_, _, congrArg Host.Outcome.next (hostLoad_refused hrefused)⟩
  | start => exact ⟨_, _, congrArg Host.Outcome.next (hostStart_ignored (.inr hcause))⟩
  | stop => exact ⟨_, _, congrArg Host.Outcome.next (hostStop_stopped hon)⟩
  | step rnd => exact ⟨_, _, coreStep_stopped rnd s hon⟩
  | keyWrite _ _ | redrawAck => exact ⟨_, _, rfl⟩

theorem sessionTones_cons_next {c : HostCommand} (h : hostAct c s = .next t) (cs : List HostCommand) :
    sessionTones (c :: cs) s = commandTone c s ++ sessionTones cs t := by
  simp only [sessionTones, h]

/-- From a terminal state a session without `init` answers that state but for the keypad and needsRedraw, and each of its
steps outputs tone 0. -/
theorem session_terminal {cs : List HostCommand} (hs : s.Terminal) (hcs : HostCommand.init ∉ cs)
    (h : session cs s = .next t) :
    (∃ keys redraw, t = { s with key := keys, needsRedraw := redraw }) ∧
      sessionTones cs s = List.replicate (cs.countP HostCommand.isStep) false := by
  induction cs generalizing s with
  | nil => exact ⟨⟨_, _, (Host.Outcome.next.inj h).symm⟩, rfl⟩
  | cons c cs ih =>
    rw [List.mem_cons, not_or] at hcs
    obtain ⟨hc, hcs⟩ := hcs
    obtain ⟨u, hu, ht⟩ := session_cons_next h
    obtain ⟨keys, redraw, hact⟩ := hostAct_terminal hs (Ne.symm hc)
    obtain rfl := Host.Outcome.next.inj (hact.symm.trans hu)
    obtain ⟨hstate, htones⟩ := ih (s := { s with key := keys, needsRedraw := redraw }) hs hcs ht
    refine ⟨hstate, ?_⟩
    rw [sessionTones_cons_next hu, commandTone_stopped c hs.1, htones, List.countP_cons, Nat.add_comm,
      List.replicate_add]

/-- Settles O59, by induction on the session: every command of it answers a terminal state again. -/
theorem onlyInitLeavesATerminalState : Obligations.OnlyInitLeavesATerminalState := by
  intro cs s t hs hcs h
  obtain ⟨⟨keys, redraw, rfl⟩, htones⟩ := session_terminal hs hcs h
  refine ⟨hs, rfl, htones.trans (congrArg (List.replicate · false) (List.countP_congr fun c _ => ?_))⟩
  cases c <;> rfl

end Sys2Proof.Machine
end

section
/-! PROOF. The whole step (spec/40_step_cycle.md R120 to R129): which instruction it runs, what it ticks and counts, and
what a halting one leaves. -/

namespace Sys2Proof.Machine

variable {s t : State} {i : Instr} {P : Instr → Prop}

/-! ## The instruction of a step -/

/-- Settles O6. -/
theorem stoppedEngineIgnoresAStep : Obligations.StoppedEngineIgnoresAStep :=
  fun s hon => ⟨coreStep_stopped _ s hon, tone_stopped hon⟩

/-- The step around the instruction it runs (R126, R127). -/
theorem step_of_runs (hr : Runs s i) (he : exec i s.fetched = .next t) : step s = .next (countCycle t) := by
  obtain ⟨w, hfetch, hdecode⟩ := hr
  exact (step_of_fetches hfetch).trans (runWord_next hdecode he)

/-- Settles O7: the instruction answers a next state, which the step counts. -/
theorem stepRunsTheDecodedInstruction : Obligations.StepRunsTheDecodedInstruction := by
  intro s w i hfetch hdecode
  obtain ⟨t, he⟩ := exec_answers i s.fetched
  exact ⟨t, he, step_of_runs ⟨w, hfetch, hdecode⟩ he⟩

theorem onlyRegs_setReg (x : Reg) (v : Byte) (s : State) : OnlyRegs [x] s (s.setReg x v) :=
  ⟨fun _ hr => reg_setReg_other s v (List.ne_of_not_mem_cons hr), rfl, rfl, fun _ => rfl, ⟨fun _ => rfl, rfl⟩,
    ⟨fun _ _ => rfl, rfl⟩, ⟨rfl, rfl⟩, ⟨fun _ => rfl, rfl, rfl, rfl⟩, rfl, rfl, rfl, rfl⟩

@[simp] theorem reg_countCycle (s : State) (r : Reg) : (countCycle s).reg r = s.reg r := by
  rw [countCycle_eq]; rfl

/-- Settles O36: the byte CXNN masks is the one its step has latched. -/
theorem randMasksTheInputByte : Obligations.RandMasksTheInputByte := by
  refine fun x nn s => ⟨⟨_, rfl, reg_setReg_same .., fun k _ hk => ?_, onlyRegs_setReg x _ s⟩, fun hr => ?_⟩
  · rw [reg_setReg_same, BitVec.getLsbD_and, Bool.and_eq_true] at hk
    exact hk.2
  · exact ⟨_, step_of_runs hr rfl, (reg_countCycle _ x).trans (reg_setReg_same ..)⟩

/-! ## The count (R127) -/

theorem Effect.cycles (h : Effect s i t) : t.cycles = s.cycles := by
  cases h <;> rfl

/-- Settles O11: only the step that ran an instruction counts, unless that halted. -/
theorem onlyCompletedStepsAreCounted : Obligations.OnlyCompletedStepsAreCounted := by
  intro s t hon h
  cases coreStep_effect h with
  | stopped hoff => exact absurd hon (Bool.eq_false_iff.1 hoff)
  | refused | illegal => rfl
  | ran _ he => exact he.cycles ▸ rfl

/-! ## The timers (R122, R248) -/

theorem Effect.delay_or (h : Effect s i t) (hi : P i) : t.DT = s.DT ∨ ∃ x, P (.setDelay x) ∧ t.DT = s.reg x := by
  cases h with
  | setsDelay x => exact .inr ⟨x, hi, rfl⟩
  | _ => exact .inl rfl

theorem Effect.sound_or (h : Effect s i t) (hi : P i) : t.ST = s.ST ∨ ∃ x, P (.setSound x) ∧ t.ST = s.reg x := by
  cases h with
  | setsSound x => exact .inr ⟨x, hi, rfl⟩
  | _ => exact .inl rfl

theorem tone_running (h : s.on = true) : tone s = true ↔ 0 < s.ST.toNat := by simp [tone, h]

/-- Settles O10: the tick comes before the fetch, so only the instruction can write a timer after it. -/
theorem everyStepTicksBothTimers : Obligations.EveryStepTicksBothTimers := by
  intro s t hon h
  refine ⟨tone_running hon, ?_⟩
  have hDT : (countDown s.DT).toNat = s.DT.toNat - 1 := countDown_toNat s.DT
  have hST : (countDown s.ST).toNat = s.ST.toNat - 1 := countDown_toNat s.ST
  cases coreStep_effect h with
  | stopped hoff => exact absurd hon (Bool.eq_false_iff.1 hoff)
  | refused | illegal => exact ⟨.inl hDT, .inl hST⟩
  | ran hr he =>
    exact ⟨(he.delay_or hr).imp_left fun e => (congrArg BitVec.toNat e).trans hDT,
      (he.sound_or hr).imp_left fun e => (congrArg BitVec.toNat e).trans hST⟩

/-- What falls by one a step, stopping at 0, has fallen by n after n steps. -/
theorem falls_by_steps {f : Nat → Nat} {n : Nat} (h : ∀ k < n, f (k + 1) = f k - 1) : ∀ k ≤ n, f k = f 0 - k
  | 0, _ => rfl
  | k + 1, hk => by rw [h k hk, falls_by_steps h k (Nat.le_of_succ_le hk), Nat.sub_sub]

/-- Settles O19: in each step the timer is not set, so it falls by one. -/
theorem timersCountStepsDownToZero : Obligations.TimersCountStepsDownToZero := by
  intro run n hrun
  refine ⟨fun hno => ?_, fun hno => ?_⟩
  · refine falls_by_steps (f := fun k => (run k).DT.toNat) (fun k hk => ?_) n le_rfl
    obtain ⟨hon, hstep⟩ := hrun k hk
    obtain ⟨-, hDT, -⟩ := everyStepTicksBothTimers _ _ hon hstep
    exact hDT.resolve_right fun ⟨x, hx, _⟩ => hno k hk ⟨x, hx⟩
  · have hST : ∀ k ≤ n, (run k).ST.toNat = (run 0).ST.toNat - k := by
      refine falls_by_steps (f := fun k => (run k).ST.toNat) fun k hk => ?_
      obtain ⟨hon, hstep⟩ := hrun k hk
      obtain ⟨-, -, hST⟩ := everyStepTicksBothTimers _ _ hon hstep
      exact hST.resolve_right fun ⟨x, hx, _⟩ => hno k hk ⟨x, hx⟩
    refine ⟨hST n le_rfl, fun k hk => ?_⟩
    rw [tone_running (hrun k hk).1, hST k hk.le, Nat.sub_pos_iff_lt]

/-! ## A halting step (R128, R269, R270) -/

/-- An instruction that stops a RUNNING engine has halted for one of the reasons. -/
theorem Effect.halts_of_off (h : Effect s i t) (hon : s.on = true) (hoff : t.on = false) :
    ∃ c, HaltReason s i c ∧ t = raiseIn c i s := by
  cases h with
  | halts hreason => exact ⟨_, hreason, rfl⟩
  | _ => exact absurd hon (Bool.eq_false_iff.1 hoff)

/-- The cause of a halt on the fetched word `w`, with its reason in the state before the step (R262 to R265). -/
def CauseOnWord (s : State) (w : Word) (c : HaltCause) : Prop :=
  (c = .decodeError ∧ decode w = none) ∨ (c = .stackUnderflow ∧ w = 0x00EE ∧ s.sp = 0) ∨
    (c = .stackOverflow ∧ (∃ nnn, decode w = some (.call nnn)) ∧ s.sp = 16) ∨
    (c = .indexBounds ∧
      ((∃ x y n, decode w = some (.draw x y n) ∧ 0 < n.val ∧ 0xFFF < s.I.toNat + (n.val - 1)) ∨
        (∃ x, decode w = some (.bcd x) ∧ 0xFFF < s.I.toNat + 2) ∨
        (∃ x, decode w = some (.storeRegs x) ∧ 0xFFF < s.I.toNat + x.val) ∨
        (∃ x, decode w = some (.loadRegs x) ∧ 0xFFF < s.I.toNat + x.val)))

theorem HaltReason.causeOnWord {c : HaltCause} {w : Word} (h : HaltReason s i c) (hd : decode w = some i) :
    CauseOnWord s w c := by
  cases h with
  | emptyStack hsp =>
    have hw : encode .ret = w := (everyLegalWordIsItsInstructionsOpcode w _ hd).2
    exact .inr (.inl ⟨rfl, hw.symm, hsp⟩)
  | fullStack nnn hsp => exact .inr (.inr (.inl ⟨rfl, ⟨nnn, hd⟩, hsp⟩))
  | drawOverruns x y n hn hI => exact .inr (.inr (.inr ⟨rfl, .inl ⟨x, y, n, hd, hn, hI⟩⟩))
  | bcdOverruns x hI => exact .inr (.inr (.inr ⟨rfl, .inr (.inl ⟨x, hd, hI⟩)⟩))
  | storeOverruns x hI => exact .inr (.inr (.inr ⟨rfl, .inr (.inr (.inl ⟨x, hd, hI⟩))⟩))
  | loadOverruns x hI => exact .inr (.inr (.inr ⟨rfl, .inr (.inr (.inr ⟨x, hd, hI⟩))⟩))

/-- Settles O15, by the three steps that halt: refused, illegal, and an instruction with a reason to halt. -/
theorem aHaltingStepLeavesOnlyItsTrace : Obligations.AHaltingStepLeavesOnlyItsTrace := by
  intro s t hon h hoff
  have hframe := fun c w => raise_tick_frame (Config.rndInput s.draws) c w s.pc s
  cases coreStep_effect h with
  | stopped hstopped => exact absurd hon (Bool.eq_false_iff.1 hstopped)
  | refused _ hpc =>
    obtain ⟨hticked, hkept⟩ := hframe .pcBounds 0
    exact ⟨hticked, rfl, hkept, rfl, .inl ⟨rfl, hpc, rfl, rfl⟩⟩
  | @illegal w hfetch hillegal =>
    obtain ⟨hticked, hkept⟩ := hframe .decodeError w
    exact ⟨hticked, rfl, hkept, rfl, .inr ⟨hfetch, rfl, .inl ⟨rfl, hillegal⟩⟩⟩
  | @ran i u hr he =>
    obtain ⟨w, hfetch, hd⟩ := hr
    obtain ⟨c, hreason, rfl⟩ := he.halts_of_off hon hoff
    obtain ⟨hticked, hkept⟩ := hframe c w
    obtain rfl : encode i = w := (everyLegalWordIsItsInstructionsOpcode w i hd).2
    exact ⟨hticked, rfl, hkept, BitVec.add_sub_cancel s.pc 2, .inr ⟨hfetch, rfl, hreason.causeOnWord hd⟩⟩

/-! ## The input byte (R137) -/

/-- With another latched byte a meaning answers the same state but for that byte. -/
def IgnoresInput (meaning : State → Result) : Prop :=
  ∀ (b : Byte) (s : State), ∃ t, meaning s = .next t ∧ meaning { s with rnd := b } = .next { t with rnd := b }

theorem skipIf_setRnd (c : Bool) (b : Byte) (s : State) :
    skipIf c { s with rnd := b } = { skipIf c s with rnd := b } := by
  cases c <;> rfl

theorem execRet_ignoresInput : IgnoresInput execRet := by
  intro b s
  rcases Nat.eq_zero_or_pos s.sp.val with h | h
  · exact ⟨_, execRet_halts s (Fin.ext h), execRet_halts { s with rnd := b } (Fin.ext h)⟩
  · exact ⟨_, execRet_pops s h, execRet_pops { s with rnd := b } h⟩

theorem execCall_ignoresInput (nnn : Addr12) : IgnoresInput (execCall nnn) := by
  intro b s
  by_cases h : s.sp.val < 16
  · exact ⟨_, execCall_pushes s nnn h, execCall_pushes { s with rnd := b } nnn h⟩
  · have h16 : s.sp = 16 := Fin.ext (by have := s.sp.isLt; omega)
    exact ⟨_, execCall_halts s nnn h16, execCall_halts { s with rnd := b } nnn h16⟩

theorem execWaitKey_ignoresInput (x : Reg) : IgnoresInput (execWaitKey x) := by
  intro b s
  have hkey : selectedKey Config.keySelect { s with rnd := b } = selectedKey Config.keySelect s := rfl
  unfold execWaitKey
  rw [hkey]
  cases selectedKey Config.keySelect s with
  | none => exact ⟨_, rfl, rfl⟩
  | some k => exact ⟨_, rfl, rfl⟩

theorem execDraw_ignoresInput (x y : Reg) (n : Nibble) : IgnoresInput (execDraw x y n) := by
  intro b s
  by_cases h : 0 < n.val ∧ 0xFFF < s.I.toNat + (n.val - 1)
  · obtain ⟨hn, hI⟩ := h
    exact ⟨_, execDraw_halts s x y n hn hI, execDraw_halts { s with rnd := b } x y n hn hI⟩
  · have hI : n.val = 0 ∨ s.I.toNat + (n.val - 1) ≤ 0xFFF := by omega
    exact ⟨_, execDraw_draws s x y n hI, execDraw_draws { s with rnd := b } x y n hI⟩

/-- A store inside memory ignores the input byte. -/
theorem storeBytes_ignoresInput {a : Nat} {bs : List Byte} (hfit : a + bs.length ≤ Config.memLast + 1) :
    IgnoresInput (storeBytes a bs) := by
  intro b s
  obtain ⟨m, hw, -⟩ := writeBytes_spec bs s.mem a hfit
  exact ⟨{ s with mem := m }, by rw [storeBytes, hw], by rw [storeBytes, hw]⟩

theorem execBcd_ignoresInput (x : Reg) : IgnoresInput (execBcd x) := by
  intro b s
  rcases Nat.lt_or_ge 0xFFF (s.I.toNat + 2) with h | h
  · exact ⟨_, execBcd_halts s x h, execBcd_halts { s with rnd := b } x h⟩
  · rw [execBcd_stores s x h, execBcd_stores { s with rnd := b } x h]
    exact storeBytes_ignoresInput (by rw [length_bcdDigits]; unfold Config.memLast; omega) b s

theorem execStoreRegs_ignoresInput (x : Reg) : IgnoresInput (execStoreRegs x) := by
  intro b s
  rcases Nat.lt_or_ge 0xFFF (s.I.toNat + x.val) with h | h
  · exact ⟨_, execStoreRegs_halts s x h, execStoreRegs_halts { s with rnd := b } x h⟩
  · rw [execStoreRegs_stores s x h, execStoreRegs_stores { s with rnd := b } x h]
    exact storeBytes_ignoresInput (by rw [length_regsTo]; unfold Config.memLast; omega) b s

theorem execLoadRegs_ignoresInput (x : Reg) : IgnoresInput (execLoadRegs x) := by
  intro b s
  rcases Nat.lt_or_ge 0xFFF (s.I.toNat + x.val) with h | h
  · exact ⟨_, execLoadRegs_halts s x h, execLoadRegs_halts { s with rnd := b } x h⟩
  · exact ⟨_, execLoadRegs_loads s x h, execLoadRegs_loads { s with rnd := b } x h⟩

/-- No instruction but CXNN reads the input byte. -/
theorem exec_ignoresInput (h : ∀ x nn, i ≠ .rand x nn) : IgnoresInput (exec i) := by
  cases i with
  | rand x nn => exact absurd rfl (h x nn)
  | ret => exact execRet_ignoresInput
  | call nnn => exact execCall_ignoresInput nnn
  | waitKey x => exact execWaitKey_ignoresInput x
  | draw x y n => exact execDraw_ignoresInput x y n
  | bcd x => exact execBcd_ignoresInput x
  | storeRegs x => exact execStoreRegs_ignoresInput x
  | loadRegs x => exact execLoadRegs_ignoresInput x
  | skipEqImm _ _ | skipNeqImm _ _ | skipEqReg _ _ | skipNeqReg _ _ | skipKey _ | skipNotkey _ =>
    exact fun b s => ⟨_, rfl, congrArg Host.Outcome.next (skipIf_setRnd _ b s)⟩
  | clearScreen | legacyCall _ | jump _ | jumpOffset _ | loadImm _ _ | addImm _ _ | move _ _ | or _ _ | and _ _
  | xor _ _ | add _ _ | sub _ _ | shr _ _ | subn _ _ | shl _ _ | loadIndex _ | addIndex _ | fontAddr _ | getDelay _
  | setDelay _ | setSound _ =>
    exact fun _ _ => ⟨_, rfl, rfl⟩

theorem runWord_ignoresInput {w : Word} (h : ∀ x nn, decode w ≠ some (.rand x nn)) : IgnoresInput (runWord w) := by
  intro b s
  cases hd : decode w with
  | none => exact ⟨_, runWord_illegal s hd, runWord_illegal _ hd⟩
  | some i =>
    have hi : ∀ x nn, i ≠ .rand x nn := fun x nn e => h x nn (e ▸ hd)
    obtain ⟨t, ht, htb⟩ := exec_ignoresInput hi b s
    refine ⟨_, runWord_next hd ht, ?_⟩
    rw [runWord_next hd htb, countCycle_eq, countCycle_eq]

/-- Where the fetch is not refused the word fetched is that of the two bytes at pc (R63, R69). -/
theorem fetches_joinBytes (hon : s.on = true) (hf : fetchRefused s = false) :
    Fetches s (joinBytes (s.byteAt s.pc.toNat) (s.byteAt (s.pc.toNat + 1))) :=
  ⟨hon, Nat.le_of_not_lt (of_decide_eq_false hf), joinBytes_toNat _ _⟩

/-- Settles O18: with either byte the step takes the same branch, and from the fetch on it differs in that byte alone. -/
theorem onlyRandReadsTheInputByte : Obligations.OnlyRandReadsTheInputByte := by
  intro a b s t hon hno h
  cases hf : fetchRefused s with
  | true =>
    rw [coreStep_refused a s hon hf] at h
    cases h
    exact coreStep_refused b s hon hf
  | false =>
    have hnorand := fun x nn hd => hno ⟨x, nn, _, fetches_joinBytes hon hf, hd⟩
    obtain ⟨u, hu, hub⟩ := runWord_ignoresInput hnorand b (advance (tick (takeInput a s)))
    rw [coreStep_fetched a s hon hf, hu] at h
    cases h
    exact (coreStep_fetched b s hon hf).trans hub

end Sys2Proof.Machine
end

section
/-! PROOF. Control transfer (spec/41_flow.md): the instructions that only move pc, the call stack as 2NNN and 00EE leave
it, and the loops that lead back to their own address (70_reset_and_hazards.md R315). -/

namespace Sys2Proof.Machine

variable {s t : State} {i : Instr} {nnn : Addr12}

/-! ## Opcodes -/

/-- The number of a well-formed instruction's opcode encodes that instruction (R99). -/
theorem encodedAs_of_encode {w : Nat} (hwf : i.WellFormed) (h : encode i = BitVec.ofNat 16 w) : EncodedAs w i :=
  (congrArg decode h.symm).trans (decodingAnEncodedInstructionGivesItBack i hwf)

theorem encode_legacyCall (nnn : Addr12) : encode (.legacyCall nnn) = BitVec.ofNat 16 nnn.toNat := by
  simp [encode, wordA]

/-- Majors 5 and 9 have no function code but 0 (R96). -/
theorem decode_wordR_illegal {op : Nat} (hop : op = 0x5 ∨ op = 0x9) (x y : Reg) {n : Nibble} (hn : n ≠ 0) :
    decode (wordR op x y n) = none := by
  rcases hop with rfl | rfl <;> simp [decode, Laws.EncodeMajor.wordR_major, hn]

/-! ## Moving pc -/

theorem onlyPc_setPc (s : State) (w : Word) : OnlyPc s (s.setPc w) :=
  ⟨fun _ _ => rfl, rfl, fun _ => rfl, ⟨fun _ => rfl, rfl⟩, ⟨fun _ _ => rfl, rfl⟩, ⟨rfl, rfl⟩,
    ⟨fun _ => rfl, rfl, rfl, rfl⟩, rfl, rfl, rfl, rfl⟩

theorem target_toNat (nnn : Addr12) : (target nnn).toNat = nnn.toNat := by
  rw [target, BitVec.toNat_ofNat]
  exact Nat.mod_eq_of_lt (by have := nnn.isLt; omega)

/-- The sum of BNNN is at most 0x10FE, so it does not wrap (R154). -/
theorem targetOffset_toNat (nnn : Addr12) (s : State) :
    (targetOffset nnn s).toNat = nnn.toNat + (s.reg 0).toNat := by
  rw [targetOffset, BitVec.toNat_ofNat]
  exact Nat.mod_eq_of_lt (by have := nnn.isLt; have := (s.reg 0).isLt; omega)

/-- Settles O22. -/
theorem jumpSetsThePc : Obligations.JumpSetsThePc :=
  fun nnn s => ⟨encodedAs_of_encode rfl rfl, _, rfl, target_toNat nnn, onlyPc_setPc s _⟩

/-- Settles O26. -/
theorem jumpOffsetAddsV0 : Obligations.JumpOffsetAddsV0 :=
  fun nnn s => ⟨_, rfl, targetOffset_toNat nnn s, onlyPc_setPc s _⟩

/-! ## Skips -/

theorem skipIf_eq_setPc (c : Bool) (s : State) : skipIf c s = s.setPc (if c then s.pc + 2 else s.pc) := by
  cases c <;> rfl

theorem onlyPc_skipIf (c : Bool) (s : State) : OnlyPc s (skipIf c s) :=
  skipIf_eq_setPc c s ▸ onlyPc_setPc s _

theorem skipIf_beq_pc (a b : Byte) (s : State) : (skipIf (a == b) s).pc = if a = b then s.pc + 2 else s.pc := by
  simp [skipIf_eq_setPc]

theorem skipIf_bne_pc (a b : Byte) (s : State) : (skipIf (a != b) s).pc = if a = b then s.pc else s.pc + 2 := by
  simp [skipIf_eq_setPc]

/-- Settles O27. -/
theorem immediateSkipsCompareWithTheByte : Obligations.ImmediateSkipsCompareWithTheByte :=
  fun x nn s => ⟨encodedAs_of_encode rfl rfl, encodedAs_of_encode rfl rfl,
    ⟨_, rfl, skipIf_beq_pc (s.reg x) nn s, onlyPc_skipIf _ s⟩, ⟨_, rfl, skipIf_bne_pc (s.reg x) nn s, onlyPc_skipIf _ s⟩⟩

/-- Settles O28: a nonzero last nibble is a function code that the major does not have. -/
theorem registerSkipsCompareTheRegisters : Obligations.RegisterSkipsCompareTheRegisters := by
  refine fun x y s => ⟨encodedAs_of_encode rfl rfl, encodedAs_of_encode rfl rfl, fun n hpos hlt => ?_,
    ⟨_, rfl, skipIf_beq_pc (s.reg x) (s.reg y) s, onlyPc_skipIf _ s⟩,
    ⟨_, rfl, skipIf_bne_pc (s.reg x) (s.reg y) s, onlyPc_skipIf _ s⟩⟩
  have hn : (⟨n, hlt⟩ : Nibble) ≠ 0 := fun h => hpos.ne' (congrArg Fin.val h)
  exact ⟨decode_wordR_illegal (.inl rfl) x y hn, decode_wordR_illegal (.inr rfl) x y hn⟩

/-! ## Call and return -/

/-- What 2NNN leaves with `k` entries on the stack (R153). -/
def State.called (s : State) (nnn : Addr12) (k : Fin 16) : State :=
  { s with stack := s.stack.set k.val s.pc k.isLt, sp := k.succ, pc := target nnn }

/-- What 00EE leaves with `k + 1` entries on the stack (R151). -/
def State.returned (s : State) (k : Fin 16) : State := { s with sp := k.castSucc, pc := s.stackAt k }

theorem exec_call {k : Fin 16} (hk : s.sp.val = k.val) : exec (.call nnn) s = .next (s.called nnn k) := by
  have hroom : s.sp.val < 16 := hk ▸ k.isLt
  obtain rfl : k = ⟨s.sp.val, hroom⟩ := Fin.ext hk.symm
  exact execCall_pushes s nnn hroom

theorem exec_ret {k : Fin 16} (hk : s.sp.val = k.val + 1) : exec .ret s = .next (s.returned k) := by
  have hpos : 0 < s.sp.val := hk ▸ k.val.succ_pos
  have hnewest : ⟨s.sp.val - 1, by omega⟩ = k := Fin.ext (Nat.sub_eq_of_eq_add hk)
  exact hnewest ▸ execRet_pops s hpos

theorem stackAt_called (s : State) (nnn : Addr12) (k j : Fin 16) :
    (s.called nnn k).stackAt j = if j = k then s.pc else s.stackAt j := by
  have e : j = k ↔ k.val = j.val := Fin.ext_iff.trans eq_comm
  simp only [State.stackAt, State.called, Vector.get_eq_getElem, Vector.getElem_set, e]

theorem onlyStack_called (s : State) (nnn : Addr12) (k : Fin 16) : OnlyStack [k] s (s.called nnn k) :=
  ⟨fun _ _ => rfl, rfl, fun _ => rfl, fun j hj => (stackAt_called s nnn k j).trans (if_neg (List.ne_of_not_mem_cons hj)),
    ⟨fun _ _ => rfl, rfl⟩, ⟨rfl, rfl⟩, ⟨fun _ => rfl, rfl, rfl, rfl⟩, rfl, rfl, rfl, rfl⟩

/-- A return clears no entry (R151). -/
theorem onlyStack_returned (s : State) (k : Fin 16) : OnlyStack [] s (s.returned k) :=
  ⟨fun _ _ => rfl, rfl, fun _ => rfl, fun _ _ => rfl, ⟨fun _ _ => rfl, rfl⟩, ⟨rfl, rfl⟩, ⟨fun _ => rfl, rfl, rfl, rfl⟩,
    rfl, rfl, rfl, rfl⟩

/-- Settles O24, by whether the stack has room. -/
theorem callPushesThePcAndJumps : Obligations.CallPushesThePcAndJumps := by
  refine fun nnn s => ⟨encodedAs_of_encode rfl rfl, fun k hk => ?_, fun hfull => ?_⟩
  · have hpushed : (s.called nnn k).stackAt k = s.pc := (stackAt_called s nnn k k).trans (if_pos rfl)
    exact ⟨_, exec_call hk, hpushed, rfl, target_toNat nnn, onlyStack_called s nnn k⟩
  · exact ⟨_, execCall_halts s nnn hfull, raiseIn_haltsWith (i := .call nnn) rfl _ s⟩

/-- Settles O21, by whether the stack has an entry; the invariant bounds the entry that becomes pc. -/
theorem returnPopsThePc : Obligations.ReturnPopsThePc := by
  refine ⟨encodedAs_of_encode rfl rfl, fun s k hk => ?_, fun s hempty => ?_⟩
  · have hbound : s.Inv → (s.stackAt k).toNat ≤ 0xFFF := fun ⟨_, _, hstack, _⟩ => hstack k
    exact ⟨_, exec_ret hk, rfl, rfl, onlyStack_returned s k, hbound⟩
  · exact ⟨_, execRet_halts s hempty, raiseIn_haltsWith (i := .ret) rfl _ s⟩

/-- Settles O25: the entry the return pops is the one the call pushed, and beyond pc and sp the return writes nothing. -/
theorem returnUndoesACall : Obligations.ReturnUndoesACall := by
  intro nnn s k hk
  have hpc : ((s.called nnn k).returned k).pc = s.pc := (stackAt_called s nnn k k).trans (if_pos rfl)
  have hsp : ((s.called nnn k).returned k).sp = s.sp := Fin.ext hk.symm
  exact ⟨_, _, exec_call hk, exec_ret rfl, hpc, hsp, onlyStack_called s nnn k⟩

/-! ## A step whose instruction only moves pc -/

/-- What a step leaves whose instruction does nothing but leave pc at `w`: the input byte, the tick, pc and the count
(R122, R127). -/
def State.steppedTo (s : State) (w : Word) : State :=
  { tick (takeInput (Config.rndInput s.draws) s) with pc := w, cycles := s.cycles + 1 }

theorem on_of_runs (hr : Runs s i) : s.on = true := (fetched_of_runs hr).1

theorem step_steppedTo {w : Word} (hr : Runs s i) (he : exec i s.fetched = .next (s.fetched.setPc w)) :
    step s = .next (s.steppedTo w) := by
  have hon : (s.fetched.setPc w).on = true := on_of_runs (s := s) hr
  rw [step_of_runs hr he, countCycle_eq, if_pos hon, fetched_eq]
  rfl

theorem ticked_steppedTo (s : State) (w : Word) : Ticked s (s.steppedTo w) :=
  ⟨countDown_toNat s.DT, countDown_toNat s.ST⟩

theorem onlyStepFrame_steppedTo (s : State) (w : Word) : OnlyStepFrame s (s.steppedTo w) :=
  ⟨fun _ _ => rfl, rfl, fun _ => rfl, ⟨fun _ => rfl, rfl⟩, ⟨fun _ _ => rfl, rfl⟩, fun _ => rfl⟩

/-- Settles O20: the step's instruction leaves pc where the fetch has advanced it. -/
theorem legacyCallDoesNothing : Obligations.LegacyCallDoesNothing := by
  refine fun nnn s => ⟨fun hE0 hEE => ?_, rfl, fun hr => ?_⟩
  · have hwf : (Instr.legacyCall nnn).WellFormed := Bool.and_eq_true_iff.2 ⟨bne_iff_ne.2 hE0, bne_iff_ne.2 hEE⟩
    exact encodedAs_of_encode hwf (encode_legacyCall nnn)
  · exact ⟨_, step_steppedTo (w := s.pc + 2) hr rfl, rfl, rfl, ticked_steppedTo s _, onlyStepFrame_steppedTo s _,
      rfl, rfl, rfl, rfl⟩

/-! ## Loops that never end (R315) -/

/-- The next instruction leads back to its own address: a jump to itself (R152), or FX0A while no key is pressed
(R244). -/
inductive Spins (s : State) : Prop
  | jump (nnn : Addr12) : Runs s (.jump nnn) → nnn.toNat = s.pc.toNat → Spins s
  | waitKey (x : Reg) : Runs s (.waitKey x) → (∀ k, s.keyDown k = false) → Spins s

theorem Spins.on (h : Spins s) : s.on = true := by
  cases h with
  | jump _ hr _ | waitKey _ hr _ => exact on_of_runs hr

theorem Spins.step (h : Spins s) : step s = .next (s.steppedTo s.pc) := by
  cases h with
  | jump nnn hr hpc =>
    have htarget : target nnn = s.pc := BitVec.eq_of_toNat_eq ((target_toNat nnn).trans hpc)
    exact step_steppedTo hr (htarget ▸ rfl)
  | waitKey x hr hkeys =>
    have hback : s.fetched.pc - 2 = s.pc := BitVec.add_sub_cancel s.pc 2
    exact step_steppedTo hr (hback ▸ execWaitKey_waits s.fetched x hkeys)

/-- A step at the same pc changes nothing that the loop reads: the run flag, pc, memory and the keypad. -/
theorem Spins.steppedTo (h : Spins s) : Spins (s.steppedTo s.pc) := by
  cases h with
  | jump nnn hr hpc => exact .jump nnn hr hpc
  | waitKey x hr hkeys => exact .waitKey x hr hkeys

theorem spunFor_zero (hon : s.on = true) : SpunFor 0 s s :=
  ⟨hon, rfl, (BitVec.add_zero _).symm, rfl, rfl,
    ⟨fun _ _ => rfl, rfl, fun _ => rfl, ⟨fun _ => rfl, rfl⟩, ⟨fun _ _ => rfl, rfl⟩, fun _ => rfl⟩, rfl, rfl, rfl, rfl⟩

/-- One spinning step before `n` others: what the frames and the run state compare with is the same before and after
it. -/
theorem SpunFor.succ {n : Nat} (h : SpunFor n (s.steppedTo s.pc) t) : SpunFor (n + 1) s t := by
  obtain ⟨hon, hpc, hcycles, hDT, hST, hframe, hrun⟩ := h
  obtain ⟨hDT1, hST1⟩ := ticked_steppedTo s s.pc
  refine ⟨hon, hpc, ?_, by omega, by omega, hframe, hrun⟩
  calc t.cycles = s.cycles + 1 + BitVec.ofNat 64 n := hcycles
    _ = s.cycles + (BitVec.ofNat 64 n + 1) := by rw [BitVec.add_assoc, BitVec.add_comm 1]
    _ = s.cycles + BitVec.ofNat 64 (n + 1) := by rw [BitVec.ofNat_add]; rfl

theorem Spins.not_fatalHalt (h : Spins s) : ¬ s.FatalHalt :=
  fun ⟨hoff, _⟩ => Bool.noConfusion (h.on.symm.trans hoff)

theorem Spins.forever (h : Spins s) (n : Nat) : SafeRun n s ∧ ∃ t, stepTimes n s = .next t ∧ SpunFor n s t := by
  induction n generalizing s with
  | zero => exact ⟨h.not_fatalHalt, s, rfl, spunFor_zero h.on⟩
  | succ n ih =>
    obtain ⟨hrest, t, ht, hspun⟩ := ih h.steppedTo
    exact ⟨⟨h.not_fatalHalt, _, h.step, hrest⟩, t, (stepTimes_succ h.step n).trans ht, hspun.succ⟩

/-- Settles O23, by induction on the number of steps: each of them leaves a state that spins again. -/
theorem aJumpToItselfRunsForever : Obligations.AJumpToItselfRunsForever :=
  fun n _ => ⟨fun nnn hr hpc => (Spins.jump nnn hr hpc).forever n, fun x hr hkeys => (Spins.waitKey x hr hkeys).forever n⟩

end Sys2Proof.Machine
end

section
/-! PROOF. Register, arithmetic and logic instructions (spec/42_alu.md): what the bytes of Flags.lean are as numbers, what
the two writes of a flag-writing instruction leave, and from them the meaning of each instruction. -/

namespace Sys2Proof.Machine

/-! ## Results and flags as numbers -/

theorem sumByte_toNat (a b : Byte) : (sumByte a b).toNat = (a.toNat + b.toNat) % 256 := BitVec.toNat_ofNat ..

theorem differenceByte_toNat (a b : Byte) : ((differenceByte a b).toNat : Int) = (a.toNat - b.toNat : Int) % 256 := by
  rw [differenceByte, BitVec.toNat_ofInt]
  exact Int.toNat_of_nonneg (Int.emod_nonneg _ (by decide))

theorem shiftRightByte_toNat (a : Byte) : (shiftRightByte a).toNat = a.toNat / 2 := by
  rw [shiftRightByte, BitVec.toNat_ofNat]
  omega

theorem lowBitFlag_toNat (a : Byte) : (lowBitFlag a).toNat = a.toNat % 2 := by
  rw [lowBitFlag, BitVec.toNat_ofNat]
  omega

theorem shiftLeftByte_toNat (a : Byte) : (shiftLeftByte a).toNat = a.toNat * 2 % 256 := BitVec.toNat_ofNat ..

theorem flagByte_decide (p : Prop) [Decidable p] : flagByte (decide p) = if p then 1 else 0 := by
  simp only [flagByte, decide_eq_true_eq]

/-- Bit 7 is the highest bit of a byte, so it is set from 128 upward. -/
theorem highBitFlag_eq_flagByte (a : Byte) : highBitFlag a = flagByte (a.getLsbD 7) := by
  have hbit : a.getLsbD 7 = decide (128 ≤ a.toNat) := (BitVec.msb_eq_getLsbD_last a).symm.trans (BitVec.msb_eq_decide a)
  rw [hbit, flagByte_decide, highBitFlag]
  split
  · next h => exact congrArg (BitVec.ofNat 8) (by omega : a.toNat / 128 = 1)
  · next h => exact congrArg (BitVec.ofNat 8) (by omega : a.toNat / 128 = 0)

/-! ## The writes of a flag-writing instruction (R170) -/

@[simp] theorem reg_setFlagThenReg_same (s : State) (x : Reg) (flag result : Byte) :
    (setFlagThenReg x flag result s).reg x = result := reg_setReg_same ..

theorem reg_setFlagThenReg_VF (s : State) {x : Reg} (flag result : Byte) (hx : x ≠ VF) :
    (setFlagThenReg x flag result s).reg VF = flag :=
  (reg_setReg_other _ result hx.symm).trans (reg_setReg_same ..)

/-- Neither write touches anything but its register. -/
theorem onlyRegs_setFlagThenReg (x : Reg) (flag result : Byte) (s : State) :
    OnlyRegs [x, VF] s (setFlagThenReg x flag result s) := by
  obtain ⟨_, hrest⟩ := onlyRegs_setReg x result (s.setReg VF flag)
  refine ⟨fun r hr => ?_, hrest⟩
  obtain ⟨hx, hVF⟩ : r ≠ x ∧ r ≠ VF := by simpa using hr
  rw [reg_setFlagThenReg, if_neg hx, if_neg hVF]

/-! ## The opcodes of major 8 -/

/-- Format R with the major and the function code added up first. -/
theorem wordR_eq_code_add (op : Nat) (x y : Reg) (n : Nibble) :
    wordR op x y n = BitVec.ofNat 16 (op * 4096 + n.val + x.val * 256 + y.val * 16) := by
  rw [wordR]
  congr 1
  omega

/-! ## Instructions that write V[x] alone -/

/-- Settles O29. -/
theorem loadImmWritesItsByte : Obligations.LoadImmWritesItsByte :=
  fun x nn s => ⟨encodedAs_of_encode rfl rfl, _, rfl, reg_setReg_same s x nn, onlyRegs_setReg x nn s⟩

/-- Settles O30. -/
theorem addImmWrapsAndWritesNoFlag : Obligations.AddImmWrapsAndWritesNoFlag := by
  refine fun x nn s => ⟨encodedAs_of_encode rfl rfl, _, rfl, ?_, onlyRegs_setReg x _ s⟩
  rw [reg_setReg_same, sumByte_toNat]

/-- Settles O31. -/
theorem moveCopiesARegister : Obligations.MoveCopiesARegister :=
  fun x y s => ⟨encodedAs_of_encode rfl rfl, _, rfl, reg_setReg_same s x (s.reg y), onlyRegs_setReg x _ s⟩

/-- Settles O32: the operations act on each bit by itself. -/
theorem logicalOperationsWriteNoFlag : Obligations.LogicalOperationsWriteNoFlag := by
  refine fun x y s => ⟨encodedAs_of_encode rfl (wordR_eq_code_add 0x8 x y 0x1),
    encodedAs_of_encode rfl (wordR_eq_code_add 0x8 x y 0x2), encodedAs_of_encode rfl (wordR_eq_code_add 0x8 x y 0x3),
    ⟨_, rfl, fun k _ => ?_, onlyRegs_setReg x _ s⟩, ⟨_, rfl, fun k _ => ?_, onlyRegs_setReg x _ s⟩,
    ⟨_, rfl, fun k _ => ?_, onlyRegs_setReg x _ s⟩⟩
  · rw [reg_setReg_same, BitVec.getLsbD_or]
  · rw [reg_setReg_same, BitVec.getLsbD_and]
  · rw [reg_setReg_same, BitVec.getLsbD_xor]

/-! ## Instructions that write VF and then V[x] -/

/-- Settles O33. -/
theorem addWritesSumAndCarry : Obligations.AddWritesSumAndCarry := by
  refine fun x y s => ⟨_, rfl, ?_, fun hx => ?_, onlyRegs_setFlagThenReg x _ _ s⟩
  · rw [reg_setFlagThenReg_same, sumByte_toNat]
  · rw [reg_setFlagThenReg_VF s _ _ hx, carryFlag, flagByte_decide]

/-- What an instruction does that writes no-borrow and the difference of two operands, in whichever order it takes them
(R178, R180). -/
theorem exec_difference {i : Instr} {s : State} {x : Reg} {a b : Byte}
    (he : exec i s = .next (setFlagThenReg x (noBorrowFlag a b) (differenceByte a b) s)) :
    ∃ t, exec i s = .next t ∧ ((t.reg x).toNat : Int) = (a.toNat - b.toNat : Int) % 256 ∧
      (x ≠ VF → t.reg VF = if b.toNat ≤ a.toNat then 1 else 0) ∧ OnlyRegs [x, VF] s t := by
  refine ⟨_, he, ?_, fun hx => ?_, onlyRegs_setFlagThenReg x _ _ s⟩
  · rw [reg_setFlagThenReg_same, differenceByte_toNat]
  · rw [reg_setFlagThenReg_VF s _ _ hx, noBorrowFlag, flagByte_decide]

/-- Settles O34: the two instructions are one subtraction, each with its own order of the operands. -/
theorem subtractionsWriteDifferenceAndNoBorrow : Obligations.SubtractionsWriteDifferenceAndNoBorrow :=
  fun _ _ _ => ⟨exec_difference rfl, exec_difference rfl⟩

/-- Settles O35. -/
theorem shiftsMoveVxByOneBit : Obligations.ShiftsMoveVxByOneBit := by
  refine fun x y s => ⟨⟨_, rfl, ?_, fun hx => ?_, onlyRegs_setFlagThenReg x _ _ s⟩,
    ⟨_, rfl, ?_, fun hx => ?_, onlyRegs_setFlagThenReg x _ _ s⟩⟩
  · rw [reg_setFlagThenReg_same, shiftRightByte_toNat]
  · rw [reg_setFlagThenReg_VF s _ _ hx, lowBitFlag_toNat]
  · rw [reg_setFlagThenReg_same, shiftLeftByte_toNat]
  · rw [reg_setFlagThenReg_VF s _ _ hx, highBitFlag_eq_flagByte, flagByte]

end Sys2Proof.Machine
end

section
/-! PROOF. Index register and memory instructions (spec/43_index_memory.md): what a write of I, a store from I and a
load from I leave, and from them the meaning of each instruction. -/

namespace Sys2Proof.Machine

/-! ## The values written to I, as numbers -/

theorem indexSum_toNat (s : State) (x : Reg) : (indexSum s x).toNat = (s.I.toNat + (s.reg x).toNat) % 65536 :=
  BitVec.toNat_ofNat ..

/-- Five times a byte is at most 1275, so it does not wrap. -/
theorem fontOffset_toNat (v : Byte) : (fontOffset v).toNat = v.toNat * 5 := by
  rw [fontOffset, BitVec.toNat_ofNat]
  omega

/-! ## Instructions that write I alone -/

theorem onlyIndex_setIndex (s : State) (w : Word) : OnlyIndex s (s.setIndex w) :=
  ⟨fun _ _ => rfl, rfl, fun _ => rfl, ⟨fun _ => rfl, rfl⟩, ⟨fun _ _ => rfl, rfl⟩, ⟨rfl, rfl⟩,
    ⟨fun _ => rfl, rfl, rfl, rfl⟩, rfl, rfl, rfl, rfl⟩

/-- Settles O37. -/
theorem loadIndexWritesTheAddress : Obligations.LoadIndexWritesTheAddress :=
  fun nnn s => ⟨encodedAs_of_encode rfl rfl, _, rfl, target_toNat nnn, onlyIndex_setIndex s _⟩

/-- Settles O38. -/
theorem addIndexWrapsAt16Bits : Obligations.AddIndexWrapsAt16Bits :=
  fun x s => ⟨_, rfl, indexSum_toNat s x, onlyIndex_setIndex s _⟩

/-- Row `k` of the glyph FX29 selects with a value of 2 to 17, the font standing at 2 * 5 (R37, R202). -/
theorem resetByte_glyph {v : Nat} (h : 2 ≤ v) (k : Nat) :
    resetByte (v * 5 + k) = Config.fontRom.getD ((v - 2) * 5 + k) 0 := by
  have hglyph : v * 5 + k = Config.fontBase + ((v - 2) * 5 + k) := by unfold Config.fontBase; omega
  rw [hglyph, resetByte_font]

/-- Settles O39: FX29 writes no byte, so what lies at five times V[x] is what `init` leaves there. -/
theorem fontAddrMultipliesByFive : Obligations.FontAddrMultipliesByFive := by
  intro x s
  have hI : (s.setIndex (fontOffset (s.reg x))).I.toNat = (s.reg x).toNat * 5 := fontOffset_toNat (s.reg x)
  refine ⟨_, rfl, hI, onlyIndex_setIndex s _, fun hmem k hk => ?_⟩
  rw [hI, setIndex_byteAt, hmem]
  exact ⟨fun hlow => resetByte_below_font (by unfold Config.fontBase; omega), fun h2 _ => resetByte_glyph h2 k⟩

/-! ## Stores from I -/

/-- A store inside memory leaves the bytes stored, and nothing else has changed (R206). -/
theorem storeBytes_stores {a : Nat} {bs : List Byte} {s : State} (hfit : a + bs.length ≤ Config.memLast + 1) :
    ∃ t, storeBytes a bs s = .next t ∧ (∀ (k : Nat) (hk : k < bs.length), t.byteAt (a + k) = bs[k]) ∧
      OnlyMem a bs.length s t := by
  obtain ⟨m, hm, -, stored, kept⟩ := storeBytes_next a bs s hfit
  exact ⟨_, hm, stored, onlyMem_setMem kept⟩

/-- Settles O40: the bytes stored are the digits, each of which fits its byte. -/
theorem bcdStoresThreeDigits : Obligations.BcdStoresThreeDigits := by
  intro x s h
  obtain ⟨t, ht, stored, honly⟩ := storeBytes_stores (s := s) (a := s.I.toNat) (bs := bcdDigits (s.reg x))
    (by rw [length_bcdDigits]; unfold Config.memLast; omega)
  have hlen : (bcdDigits (s.reg x)).length = 3 := length_bcdDigits (s.reg x)
  have digit {b : Byte} {n : Nat} (hb : b = BitVec.ofNat 8 n) (hn : n < 2 ^ 8) : b.toNat = n :=
    hb ▸ Nat.mod_eq_of_lt hn
  exact ⟨t, (execBcd_stores s x h).trans ht, digit (stored 0 (by omega)) (by omega),
    digit (stored 1 (by omega)) (by omega), digit (stored 2 (by omega)) (by omega), honly⟩

/-- Settles O41: the byte at I + r is entry r of the registers stored. -/
theorem storeRegsWritesMemoryFromI : Obligations.StoreRegsWritesMemoryFromI := by
  intro x s h
  obtain ⟨t, ht, stored, honly⟩ := storeBytes_stores (s := s) (a := s.I.toNat) (bs := s.regsTo x)
    (by rw [length_regsTo]; unfold Config.memLast; omega)
  rw [length_regsTo] at honly
  refine ⟨t, (execStoreRegs_stores s x h).trans ht, fun r hr => ?_, honly⟩
  have hlen : r.val < (s.regsTo x).length := by rw [length_regsTo]; exact Nat.lt_succ_of_le hr
  rw [stored r.val hlen, getElem_regsTo]

/-! ## A load from I -/

/-- What FX65 leaves when its bytes lie in memory (R205). -/
def State.loaded (s : State) (x : Reg) : State := s.setRegs ((List.range' s.I.toNat (x.val + 1)).map s.byteAt)

theorem reg_loaded (s : State) (x r : Reg) :
    (s.loaded x).reg r = if r ≤ x then s.byteAt (s.I.toNat + r.val) else s.reg r := by
  rw [State.loaded, reg_setRegs _ _ (by simp)]
  simp only [List.length_map, List.length_range', List.getElem_map, List.getElem_range', one_mul, Nat.lt_succ_iff,
    Fin.le_def, dite_eq_ite]

theorem onlyRegs_loaded (s : State) (x : Reg) :
    OnlyRegs ((List.finRange 16).filter (fun r => r ≤ x)) s (s.loaded x) := by
  refine ⟨fun r hr => ?_, rfl, rfl, fun _ => rfl, ⟨fun _ => rfl, rfl⟩, ⟨fun _ _ => rfl, rfl⟩, ⟨rfl, rfl⟩,
    ⟨fun _ => rfl, rfl, rfl, rfl⟩, rfl, rfl, rfl, rfl⟩
  have habove : ¬ r ≤ x := by simpa using hr
  rw [reg_loaded, if_neg habove]

/-- Settles O42. -/
theorem loadRegsReadsMemoryFromI : Obligations.LoadRegsReadsMemoryFromI :=
  fun x s h => ⟨s.loaded x, execLoadRegs_loads s x h, fun r hr => (reg_loaded s x r).trans (if_pos hr),
    fun r hr => (reg_loaded s x r).trans (if_neg (not_le_of_gt hr)), onlyRegs_loaded s x⟩

/-- Settles O43: the load reads the bytes that the store wrote, register by register. -/
theorem loadRegsUndoesStoreRegs : Obligations.LoadRegsUndoesStoreRegs := by
  intro x s t u h ht hmem hI
  obtain ⟨t', ht', stored, -⟩ := storeRegsWritesMemoryFromI x s h
  obtain rfl := Host.Outcome.next.inj (ht'.symm.trans ht)
  obtain ⟨v, hv, loaded, -⟩ := loadRegsReadsMemoryFromI x u (hI ▸ h)
  refine ⟨v, hv, fun r hr => ?_⟩
  calc v.reg r = u.byteAt (s.I.toNat + r.val) := hI ▸ loaded r hr
    _ = t'.byteAt (s.I.toNat + r.val) := hmem _
    _ = s.reg r := stored r hr

end Sys2Proof.Machine
end

section
/-! PROOF. Display instructions (spec/44_display.md): what a write of the display leaves unchanged, a drawing as the blit
of the cells under its sprite, and from them the meaning of 00E0 and DXYN. -/

namespace Sys2Proof.Machine

/-! ## What a display instruction leaves unchanged -/

theorem onlyDisplay_setDisplay (s : State) (fb : Framebuffer) : OnlyDisplay [] s (s.setDisplay fb) :=
  ⟨fun _ _ => rfl, rfl, rfl, fun _ => rfl, ⟨fun _ => rfl, rfl⟩, ⟨rfl, rfl⟩, ⟨fun _ => rfl, rfl, rfl, rfl⟩,
    rfl, rfl, rfl, rfl⟩

theorem onlyDisplay_setDisplay_setReg (s : State) (fb : Framebuffer) (x : Reg) (v : Byte) :
    OnlyDisplay [x] s ((s.setDisplay fb).setReg x v) :=
  ⟨fun _ hr => reg_setReg_other _ v (List.ne_of_not_mem_cons hr), rfl, rfl, fun _ => rfl, ⟨fun _ => rfl, rfl⟩,
    ⟨rfl, rfl⟩, ⟨fun _ => rfl, rfl, rfl, rfl⟩, rfl, rfl, rfl, rfl⟩

/-- Settles O46. -/
theorem clearScreenClearsEveryCell : Obligations.ClearScreenClearsEveryCell :=
  ⟨encodedAs_of_encode rfl rfl, fun s => ⟨_, rfl, cell_blank, rfl, onlyDisplay_setDisplay s _⟩⟩

/-! ## The cells of a blit -/

theorem Blit.cell_of_hit {hit : Fin 32 → Fin 64 → Prop} {p q : Framebuffer × Bool} (h : Blit hit p q) {r : Fin 32}
    {c : Fin 64} (hh : hit r c) : q.1.cell r c = !p.1.cell r c := by
  rw [Bool.eq_iff_iff, h.cell]
  simp [hh]

theorem Blit.cell_of_not_hit {hit : Fin 32 → Fin 64 → Prop} {p q : Framebuffer × Bool} (h : Blit hit p q) {r : Fin 32}
    {c : Fin 64} (hh : ¬ hit r c) : q.1.cell r c = p.1.cell r c := by
  rw [Bool.eq_iff_iff, h.cell]
  simp [hh]

/-! ## DXYN -/

/-- The sprite DXYN draws: the `n` bytes at I upward (R220). -/
def State.spriteBytes (s : State) (n : Nibble) : List Byte := (List.range' s.I.toNat n.val).map s.byteAt

@[simp] theorem length_spriteBytes (s : State) (n : Nibble) : (s.spriteBytes n).length = n.val := by
  simp [State.spriteBytes]

@[simp] theorem getElem_spriteBytes (s : State) (n : Nibble) (k : Nat) (h : k < (s.spriteBytes n).length) :
    (s.spriteBytes n)[k] = s.byteAt (s.I.toNat + k) := by
  simp [State.spriteBytes]

/-- The cells that lie under the sprite are those `drawAt` blits for its bytes. -/
theorem spriteCovers_iff (s : State) (x y : Reg) (n : Nibble) (r : Fin 32) (c : Fin 64) :
    SpriteCovers s x y n r c ↔ (s.reg y).toNat ≤ r.val ∧ (s.reg x).toNat ≤ c.val ∧ c.val < (s.reg x).toNat + 8 ∧
      ∃ h : r.val - (s.reg y).toNat < (s.spriteBytes n).length,
        ((s.spriteBytes n)[r.val - (s.reg y).toNat]'h).getLsbD ((s.reg x).toNat + 8 - 1 - c.val) = true := by
  simp only [SpriteCovers, length_spriteBytes, getElem_spriteBytes]
  constructor
  · rintro ⟨⟨hr, hr'⟩, ⟨hc, hc'⟩, hb⟩
    have hbit : (s.reg x).toNat + 8 - 1 - c.val = 7 - (c.val - (s.reg x).toNat) := by omega
    exact ⟨hr, hc, hc', by omega, hbit ▸ hb⟩
  · rintro ⟨hr, hc, hc', hr', hb⟩
    have hbit : 7 - (c.val - (s.reg x).toNat) = (s.reg x).toNat + 8 - 1 - c.val := by omega
    exact ⟨⟨hr, by omega⟩, ⟨hc, hc'⟩, hbit ▸ hb⟩

/-- DXYN inside memory blits the cells under its sprite and writes the collision to VF (R222). -/
theorem exec_draw_blit (x y : Reg) (n : Nibble) (s : State) (h : n.val = 0 ∨ s.I.toNat + (n.val - 1) ≤ 0xFFF) :
    ∃ fb collision, exec (.draw x y n) s = .next ((s.setDisplay fb).setReg VF (flagByte collision)) ∧
      Blit (SpriteCovers s x y n) (s.fb, false) (fb, collision) := by
  have hexec : exec (.draw x y n) s = .next (drawAt x y s (s.spriteBytes n)) := execDraw_draws s x y n h
  obtain ⟨fb, collision, hd, hblit⟩ := drawAt_blit s x y (s.spriteBytes n)
  exact ⟨fb, collision, hd ▸ hexec, hblit.congr fun r c => (spriteCovers_iff s x y n r c).symm⟩

/-- Settles O47: the cells are those of the blit, and VF is its collision. -/
theorem drawFlipsExactlyTheSpritesCells : Obligations.DrawFlipsExactlyTheSpritesCells := by
  intro x y n s h
  obtain ⟨fb, collision, hexec, hblit⟩ := exec_draw_blit x y n s h
  have hcollision : collision = true ↔ ∃ r c, SpriteCovers s x y n r c ∧ s.pixel r c = true := by
    simpa [State.pixel] using hblit.collision
  refine ⟨_, hexec, fun r c => hblit.cell_of_hit, fun r c => hblit.cell_of_not_hit, fun hlit => ?_, fun hdark => ?_,
    rfl, onlyDisplay_setDisplay_setReg s fb VF _⟩
  · rw [reg_setReg_same, hcollision.2 hlit]; rfl
  · rw [reg_setReg_same, Bool.eq_false_of_not_eq_true (mt hcollision.1 hdark)]; rfl

/-- A drawing leaves its own sprite and position as they were when VF is neither coordinate. -/
theorem spriteCovers_of_onlyDisplay {s t : State} {x y : Reg} (hx : x ≠ VF) (hy : y ≠ VF) (h : OnlyDisplay [VF] s t)
    (n : Nibble) (r : Fin 32) (c : Fin 64) : SpriteCovers t x y n r c ↔ SpriteCovers s x y n r c := by
  obtain ⟨hreg, -, hI, hmem, -⟩ := h
  have hkept {z : Reg} (hz : z ≠ VF) : t.reg z = s.reg z := hreg z (mt List.mem_singleton.1 hz)
  rw [SpriteCovers, SpriteCovers, hkept hx, hkept hy, hI, hmem]

/-- Settles O48: the second drawing covers the same cells as the first, so each is flipped twice or never; a covered cell
that it finds lit is one that the first has lit. -/
theorem drawingTwiceRestoresTheScreen : Obligations.DrawingTwiceRestoresTheScreen := by
  intro x y n s t u hx hy h ht hu
  obtain ⟨t', ht', flipped, kept, -, -, -, honly⟩ := drawFlipsExactlyTheSpritesCells x y n s h
  obtain rfl := Host.Outcome.next.inj (ht'.symm.trans ht)
  have ⟨_, _, hI, _⟩ := honly
  obtain ⟨u', hu', flipped', kept', collides, clear, -⟩ := drawFlipsExactlyTheSpritesCells x y n t' (hI ▸ h)
  obtain rfl := Host.Outcome.next.inj (hu'.symm.trans hu)
  have same := spriteCovers_of_onlyDisplay hx hy honly n
  refine ⟨fun r c => ?_, ?_⟩
  · by_cases hc : SpriteCovers s x y n r c
    · rw [flipped' r c ((same r c).2 hc), flipped r c hc, Bool.not_not]
    · rw [kept' r c (mt (same r c).1 hc), kept r c hc]
  · have lit (r c) : (SpriteCovers t' x y n r c ∧ t'.pixel r c = true) ↔ (s.pixel r c = false ∧ t'.pixel r c = true) := by
      by_cases hc : SpriteCovers s x y n r c
      · simp [same, hc, flipped r c hc]
      · simp [same, hc, kept r c hc]
    simp only [← lit]
    refine ⟨fun hVF => ?_, collides⟩
    by_contra hdark
    exact absurd ((clear hdark).symm.trans hVF) (by decide)

end Sys2Proof.Machine
end

section
/-! PROOF. Keypad and timer instructions (spec/45_keypad_timers.md): the key a skip tests, the two ways of FX0A, and the
timers, which an instruction reads and writes after its own step's tick. -/

namespace Sys2Proof.Machine

/-! ## Keypad -/

/-- The low nibble of V[x] selects the key (R240). -/
theorem keyNumber_eq {s : State} {x : Reg} {k : Fin 16} (h : k.val = (s.reg x).toNat % 16) : keyNumber s x = k :=
  Fin.ext h.symm

/-- A key number is less than 256, so it stands in its register as it is. -/
theorem keyByte_toNat (k : Fin 16) : (keyByte k).toNat = k.val := by
  rw [keyByte, BitVec.toNat_ofNat]
  exact Nat.mod_eq_of_lt (by omega)

/-- Settles O49: the key both skips test is the one with the number `k`. -/
theorem keySkipsTestTheLowNibblesKey : Obligations.KeySkipsTestTheLowNibblesKey := by
  intro x k s hk
  have hkey : keyNumber s x = k := keyNumber_eq hk
  refine ⟨⟨_, rfl, ?_, onlyPc_skipIf _ s⟩, ⟨_, rfl, ?_, onlyPc_skipIf _ s⟩⟩
  · rw [hkey, skipIf_eq_setPc, setPc_pc]
  · rw [hkey, skipIf_eq_setPc, setPc_pc]
    cases s.keyDown k <;> rfl

/-- Settles O50: with no key pressed the rewind undoes the advance of the fetch, so the whole step leads back to its own
address. -/
theorem waitKeyTakesTheLeastKeyOrRepeats : Obligations.WaitKeyTakesTheLeastKeyOrRepeats := by
  refine fun x s => ⟨fun k hk hleast => ?_, fun hnone => ?_, fun hnone hr => ?_⟩
  · have htaken : ((s.setReg x (keyByte k)).reg x).toNat = k.val := by rw [reg_setReg_same, keyByte_toNat]
    exact ⟨_, execWaitKey_takes s x k hk hleast, htaken, onlyRegs_setReg x _ s⟩
  · exact ⟨_, execWaitKey_waits s x hnone, rfl, onlyPc_setPc s _⟩
  · exact ⟨_, (Spins.waitKey x hr hnone).step, rfl, ticked_steppedTo s _, rfl, onlyStepFrame_steppedTo s _,
      rfl, rfl, rfl, rfl⟩

/-! ## Timers -/

theorem onlyTimers_setDelayTimer (s : State) (v : Byte) : OnlyTimers s (s.setDelayTimer v) :=
  ⟨fun _ _ => rfl, rfl, rfl, fun _ => rfl, ⟨fun _ => rfl, rfl⟩, ⟨fun _ _ => rfl, rfl⟩,
    ⟨fun _ => rfl, rfl, rfl, rfl⟩, rfl, rfl, rfl, rfl⟩

theorem onlyTimers_setSoundTimer (s : State) (v : Byte) : OnlyTimers s (s.setSoundTimer v) :=
  ⟨fun _ _ => rfl, rfl, rfl, fun _ => rfl, ⟨fun _ => rfl, rfl⟩, ⟨fun _ _ => rfl, rfl⟩,
    ⟨fun _ => rfl, rfl, rfl, rfl⟩, rfl, rfl, rfl, rfl⟩

@[simp] theorem DT_countCycle (s : State) : (countCycle s).DT = s.DT := by
  rw [countCycle_eq]

@[simp] theorem ST_countCycle (s : State) : (countCycle s).ST = s.ST := by
  rw [countCycle_eq]

/-- An instruction reads DT as its own step's tick has left it (R122). -/
theorem fetched_DT_toNat (s : State) : s.fetched.DT.toNat = s.DT.toNat - 1 := by
  rw [fetched_eq]
  exact countDown_toNat s.DT

/-- Settles O51: the whole step reads DT where the fetch has left it, after the tick. -/
theorem getDelayReadsTheTickedTimer : Obligations.GetDelayReadsTheTickedTimer := by
  refine fun x s => ⟨encodedAs_of_encode rfl (wordI_F x 0x07), ⟨_, rfl, reg_setReg_same .., onlyRegs_setReg x _ s⟩,
    fun hr => ⟨_, step_of_runs hr rfl, ?_⟩⟩
  rw [reg_countCycle, reg_setReg_same, fetched_DT_toNat]

/-- Settles O52: nothing writes DT between the instruction and the end of its step. -/
theorem setDelayWritesTheTimer : Obligations.SetDelayWritesTheTimer :=
  fun x s => ⟨encodedAs_of_encode rfl (wordI_F x 0x15), ⟨_, rfl, rfl, rfl, onlyTimers_setDelayTimer s _⟩,
    fun hr => ⟨_, step_of_runs hr rfl, DT_countCycle _⟩⟩

/-- Settles O53: the tone is sampled from the state a step is taken from, here the old ST and next the one written. -/
theorem setSoundWritesTheTimer : Obligations.SetSoundWritesTheTimer := by
  refine fun x s => ⟨encodedAs_of_encode rfl (wordI_F x 0x18), ⟨_, rfl, rfl, rfl, onlyTimers_setSoundTimer s _⟩,
    fun hr => ⟨tone_running (on_of_runs hr), _, step_of_runs hr rfl, ST_countCycle _, fun hon => ?_⟩⟩
  rw [tone_running hon, ST_countCycle]
  rfl

end Sys2Proof.Machine
end
